-- ==== Sys2Proof/Word.lean ====
section
/-!
DEFINITION. The words of the block (00_scope.md R9, R12): unsigned bit fields of fixed width.
-/

namespace Sys2Proof

/-- A command word or a response word, moved whole (20_memory.md R54, 30_encoding.md R70, R80). -/
abbrev Word := BitVec 32

/-- One entry of ROWBUF or KEYBUF: a Sample or a key byte (20_memory.md R50). -/
abbrev Byte := BitVec 8

/-- A Nibble, a Code4, a slot, a table index or a selector (00_scope.md R12). -/
abbrev Nibble := BitVec 4

/-- A Fragment2 (00_scope.md R12). -/
abbrev Fragment := BitVec 2

/-- A NoteCodeTriple or EvidenceTuple `(c0, c1, c2)` held as the word of R11:
`c0` in bits 11:8, `c1` in bits 7:4, `c2` in bits 3:0. -/
abbrev Triple := BitVec 12

/-- A register array of sixteen 4-bit registers (10_state.md R22: SLOT, CAND). -/
abbrev Nibbles16 := Vector Nibble 16

end Sys2Proof
end

