-- ==== Sys2Proof/Syntax.lean ====
section
/-!
DEFINITION. The command set (30_encoding.md R75): one constructor of `Instr` per row of opcode_table.json, its
operand fields at the widths of R72.
-/

namespace Sys2Proof

/-- The operand formats of 30_encoding.md R72. -/
inductive Format where
  | z | n4 | b8 | t12 | is | a | ab | an | c13
  deriving DecidableEq, Repr

/-- The allocated opcodes, in the order of 30_encoding.md R75. -/
inductive Opcode where
  | nop | ncEnc | ncDec
  | keyClr | keyPut | kpSetc | kpBuild | kpProbe | kpFwd | kpInv
  | rowLen | rowWr | rowRd | codeWr | codeRd | ppEmbed | ppExtract
  | xfEnc | xfDec | regRd | statClr
  deriving DecidableEq, Repr

/-- A command: an allocated opcode with the fields of its format (R72, R75). Every field has the width R72
gives it, so a field value that does not fit cannot be written here; the assembler's check of R83 is in
WellFormed.lean. -/
inductive Instr where
  /-- NOP, R220. -/
  | nop
  /-- NC.ENC V, R110. -/
  | ncEnc (v : Nibble)
  /-- NC.DEC T, R112. -/
  | ncDec (t : Triple)
  /-- KEY.CLR, R140. -/
  | keyClr
  /-- KEY.PUT V, R141. -/
  | keyPut (v : Byte)
  /-- KP.SETC IDX, SV, R145. -/
  | kpSetc (idx sv : Nibble)
  /-- KP.BUILD, R150. -/
  | kpBuild
  /-- KP.PROBE, R152. -/
  | kpProbe
  /-- KP.FWD T, R155. -/
  | kpFwd (t : Triple)
  /-- KP.INV V, R157. -/
  | kpInv (v : Nibble)
  /-- ROW.LEN COUNT, R175. -/
  | rowLen (count : BitVec 13)
  /-- ROW.WR ADDR, D, R176. -/
  | rowWr (addr : BitVec 12) (d : Byte)
  /-- ROW.RD ADDR, R177. -/
  | rowRd (addr : BitVec 12)
  /-- CODE.WR ADDR, D, R178. -/
  | codeWr (addr : BitVec 12) (d : Nibble)
  /-- CODE.RD ADDR, R179. -/
  | codeRd (addr : BitVec 12)
  /-- PP.EMBED COUNT, R185. -/
  | ppEmbed (count : BitVec 13)
  /-- PP.EXTRACT COUNT, R190. -/
  | ppExtract (count : BitVec 13)
  /-- XF.ENC V, R210. -/
  | xfEnc (v : Byte)
  /-- XF.DEC V, R212. -/
  | xfDec (v : Nibble)
  /-- REG.RD V, R222. -/
  | regRd (v : Nibble)
  /-- STAT.CLR, R224. -/
  | statClr
  deriving DecidableEq, Repr

/-- The opcode of a command. -/
def Instr.opcode : Instr → Opcode
  | .nop => .nop
  | .ncEnc _ => .ncEnc
  | .ncDec _ => .ncDec
  | .keyClr => .keyClr
  | .keyPut _ => .keyPut
  | .kpSetc _ _ => .kpSetc
  | .kpBuild => .kpBuild
  | .kpProbe => .kpProbe
  | .kpFwd _ => .kpFwd
  | .kpInv _ => .kpInv
  | .rowLen _ => .rowLen
  | .rowWr _ _ => .rowWr
  | .rowRd _ => .rowRd
  | .codeWr _ _ => .codeWr
  | .codeRd _ => .codeRd
  | .ppEmbed _ => .ppEmbed
  | .ppExtract _ => .ppExtract
  | .xfEnc _ => .xfEnc
  | .xfDec _ => .xfDec
  | .regRd _ => .regRd
  | .statClr => .statClr

/-- The format column of 30_encoding.md R75. -/
def Opcode.format : Opcode → Format
  | .nop | .keyClr | .kpBuild | .kpProbe | .statClr => .z
  | .ncEnc | .kpInv | .xfDec | .regRd => .n4
  | .keyPut | .xfEnc => .b8
  | .ncDec | .kpFwd => .t12
  | .kpSetc => .is
  | .rowRd | .codeRd => .a
  | .rowWr => .ab
  | .codeWr => .an
  | .rowLen | .ppEmbed | .ppExtract => .c13

/-- Every allocated opcode, in R75's order. -/
def Opcode.all : List Opcode :=
  [.nop, .ncEnc, .ncDec, .keyClr, .keyPut, .kpSetc, .kpBuild, .kpProbe, .kpFwd, .kpInv] ++
  [.rowLen, .rowWr, .rowRd, .codeWr, .codeRd, .ppEmbed, .ppExtract, .xfEnc, .xfDec, .regRd, .statClr]

/-- The mnemonic column of R75, as opcode_table.json spells it. -/
def Opcode.mnemonic : Opcode → String
  | .nop => "NOP"
  | .ncEnc => "NC.ENC"
  | .ncDec => "NC.DEC"
  | .keyClr => "KEY.CLR"
  | .keyPut => "KEY.PUT"
  | .kpSetc => "KP.SETC"
  | .kpBuild => "KP.BUILD"
  | .kpProbe => "KP.PROBE"
  | .kpFwd => "KP.FWD"
  | .kpInv => "KP.INV"
  | .rowLen => "ROW.LEN"
  | .rowWr => "ROW.WR"
  | .rowRd => "ROW.RD"
  | .codeWr => "CODE.WR"
  | .codeRd => "CODE.RD"
  | .ppEmbed => "PP.EMBED"
  | .ppExtract => "PP.EXTRACT"
  | .xfEnc => "XF.ENC"
  | .xfDec => "XF.DEC"
  | .regRd => "REG.RD"
  | .statClr => "STAT.CLR"

end Sys2Proof
end

