-- ==== Sys2Proof/WellFormed.lean ====
section
/-!
DEFINITION. Which assembly lines are commands (30_encoding.md R83): the operand fields of the opcode's format, in
order, each fitting its field ("A field value that does not fit its field is an assembly error, never truncated"),
and the pseudo-instructions of R84 as their expansions.
-/

namespace Sys2Proof

/-- The widths of a format's operand fields, in the order R83 writes them. -/
def Format.operandWidths : Format → List Nat
  | .z => []
  | .n4 => [4]
  | .b8 => [8]
  | .t12 => [12]
  | .is => [4, 4]
  | .a => [12]
  | .ab => [12, 8]
  | .an => [12, 4]
  | .c13 => [13]

/-- One line of the assembler syntax of R83: a mnemonic and the numbers after it. -/
structure AsmLine where
  op       : Opcode
  operands : List Nat
  deriving DecidableEq, Repr

/-- Why a line is an assembly error (R83). -/
inductive AsmError where
  /-- The line has not the number of operands its format has. -/
  | operandCount
  /-- The operand at this position (from 0) does not fit its field. -/
  | operandTooWide (position : Nat)
  deriving DecidableEq, Repr

/-- The first position, counted from `k`, at which an operand does not fit the width beside it. -/
def firstTooWide (k : Nat) : List Nat → List Nat → Option Nat
  | w :: ws, v :: vs => if v < 2 ^ w then firstTooWide (k + 1) ws vs else some k
  | _, _ => none

/-- The assembly error of a line, if it has one (R83). -/
def AsmLine.error? (l : AsmLine) : Option AsmError :=
  let ws := l.op.format.operandWidths
  if l.operands.length ≠ ws.length then some .operandCount
  else (firstTooWide 0 ws l.operands).map .operandTooWide

/-- A well-formed line has no assembly error. -/
def AsmLine.wellFormed (l : AsmLine) : Bool := l.error?.isNone

/-- The operands of a command as R83 writes them. -/
def Instr.operands : Instr → List Nat
  | .nop => []
  | .ncEnc v => [v.toNat]
  | .ncDec t => [t.toNat]
  | .keyClr => []
  | .keyPut v => [v.toNat]
  | .kpSetc idx sv => [idx.toNat, sv.toNat]
  | .kpBuild => []
  | .kpProbe => []
  | .kpFwd t => [t.toNat]
  | .kpInv v => [v.toNat]
  | .rowLen count => [count.toNat]
  | .rowWr addr d => [addr.toNat, d.toNat]
  | .rowRd addr => [addr.toNat]
  | .codeWr addr d => [addr.toNat, d.toNat]
  | .codeRd addr => [addr.toNat]
  | .ppEmbed count => [count.toNat]
  | .ppExtract count => [count.toNat]
  | .xfEnc v => [v.toNat]
  | .xfDec v => [v.toNat]
  | .regRd v => [v.toNat]
  | .statClr => []

/-- A command written as a line of R83. -/
def Instr.toAsm (i : Instr) : AsmLine := { op := i.opcode, operands := i.operands }

/-- A command is well formed when its line is. -/
def Instr.wellFormed (i : Instr) : Bool := i.toAsm.wellFormed

/-- The command a line of fitting operands stands for; an operand beyond the list counts as 0 and is never
reached from a well-formed line. -/
def AsmLine.build (l : AsmLine) : Instr :=
  let x := l.operands.getD 0 0
  let y := l.operands.getD 1 0
  match l.op with
  | .nop => .nop
  | .ncEnc => .ncEnc (BitVec.ofNat 4 x)
  | .ncDec => .ncDec (BitVec.ofNat 12 x)
  | .keyClr => .keyClr
  | .keyPut => .keyPut (BitVec.ofNat 8 x)
  | .kpSetc => .kpSetc (BitVec.ofNat 4 x) (BitVec.ofNat 4 y)
  | .kpBuild => .kpBuild
  | .kpProbe => .kpProbe
  | .kpFwd => .kpFwd (BitVec.ofNat 12 x)
  | .kpInv => .kpInv (BitVec.ofNat 4 x)
  | .rowLen => .rowLen (BitVec.ofNat 13 x)
  | .rowWr => .rowWr (BitVec.ofNat 12 x) (BitVec.ofNat 8 y)
  | .rowRd => .rowRd (BitVec.ofNat 12 x)
  | .codeWr => .codeWr (BitVec.ofNat 12 x) (BitVec.ofNat 4 y)
  | .codeRd => .codeRd (BitVec.ofNat 12 x)
  | .ppEmbed => .ppEmbed (BitVec.ofNat 13 x)
  | .ppExtract => .ppExtract (BitVec.ofNat 13 x)
  | .xfEnc => .xfEnc (BitVec.ofNat 8 x)
  | .xfDec => .xfDec (BitVec.ofNat 4 x)
  | .regRd => .regRd (BitVec.ofNat 4 x)
  | .statClr => .statClr

/-- The assembler of R83: an ill-formed line is an error by name, a well-formed one is a command. -/
def assemble (l : AsmLine) : Except AsmError Instr :=
  match l.error? with
  | some e => .error e
  | none => .ok l.build

/-- The pseudo-instructions of R84. `keySet` takes the string itself, whose UTF-8 encoding R84 appends. -/
inductive Pseudo where
  | keySet (s : String)
  | rowLoad (samples : List Nat)
  | codeLoad (codes : List Nat)
  | kpSetall (slots : List Nat)
  deriving DecidableEq, Repr

/-- The bytes of the UTF-8 encoding of a string, in order (20_memory.md R52). -/
def utf8Bytes (s : String) : List Byte :=
  s.toList.flatMap fun c => (String.utf8EncodeChar c).map (·.toBitVec)

/-- One line per entry of a list, with its index first: `op 0, v0` … `op n-1, v(n-1)`. -/
def indexedLines (op : Opcode) (vs : List Nat) : List AsmLine :=
  vs.zipIdx.map fun p => { op := op, operands := [p.2, p.1] }

/-- The exact expansion of a pseudo-instruction into lines (R84). `KP.SETALL` is given sixteen values there;
with another number of them this expansion writes just those. -/
def Pseudo.expand : Pseudo → List AsmLine
  | .keySet s =>
    { op := .keyClr, operands := [] } ::
      (utf8Bytes s).map fun b => { op := .keyPut, operands := [b.toNat] }
  | .rowLoad vs => indexedLines .rowWr vs ++ [{ op := .rowLen, operands := [vs.length] }]
  | .codeLoad vs => indexedLines .codeWr vs
  | .kpSetall vs => indexedLines .kpSetc vs ++ [{ op := .kpProbe, operands := [] }]

end Sys2Proof
end

