-- ==== Sys2Proof/Decode.lean ====
section
/-!
DEFINITION. Decoding and encoding of command words (30_encoding.md R70 to R78). The decoder is total on every
32-bit word and rejects by name; the encoder is written from R72's format table.
-/

namespace Sys2Proof

/-- Why a word is no command (30_encoding.md R78), in the order the two checks are made. -/
inductive DecodeError where
  /-- Bits 31:24 are an unallocated opcode (R76). -/
  | illegalOpcode
  /-- A reserved bit of the opcode's format is set (R73). -/
  | reserved
  deriving DecidableEq, Repr

/-- The OPC column of 30_encoding.md R75. -/
def Opcode.code : Opcode → BitVec 8
  | .nop => 0x00
  | .ncEnc => 0x01
  | .ncDec => 0x02
  | .keyClr => 0x10
  | .keyPut => 0x11
  | .kpSetc => 0x12
  | .kpBuild => 0x13
  | .kpProbe => 0x14
  | .kpFwd => 0x15
  | .kpInv => 0x16
  | .rowLen => 0x20
  | .rowWr => 0x21
  | .rowRd => 0x22
  | .codeWr => 0x23
  | .codeRd => 0x24
  | .ppEmbed => 0x25
  | .ppExtract => 0x26
  | .xfEnc => 0x30
  | .xfDec => 0x31
  | .regRd => 0x3E
  | .statClr => 0x3F

/-- The allocated opcode with these bits, if there is one (R75, R76). -/
def opcodeOf (b : BitVec 8) : Option Opcode := Opcode.all.find? fun o => o.code == b

/-- The reserved-bit masks of 30_encoding.md R73. -/
def Format.reservedMask : Format → Word
  | .z => 0x00FFFFFF
  | .n4 => 0x00FFFFF0
  | .b8 => 0x00FFFF00
  | .t12 => 0x00FFF000
  | .is => 0x00FFFF00
  | .a => 0x00000FFF
  | .ab => 0x00000F00
  | .an => 0x00000FF0
  | .c13 => 0x00FFE000

/-- The OPC field, bits 31:24 (R71). -/
def opcField (w : Word) : BitVec 8 := w.extractLsb' 24 8

/-- The field in bits 3:0: `V` of N4, `SV` of IS, `D` of AN (R72). -/
def field4 (w : Word) : Nibble := w.extractLsb' 0 4

/-- The field in bits 7:4: `IDX` of IS (R72). -/
def fieldIdx (w : Word) : Nibble := w.extractLsb' 4 4

/-- The field in bits 7:0: `V` of B8, `D` of AB (R72). -/
def field8 (w : Word) : Byte := w.extractLsb' 0 8

/-- The field in bits 11:0: `T` of T12 (R72). -/
def fieldT (w : Word) : Triple := w.extractLsb' 0 12

/-- The field in bits 12:0: `COUNT` of C13 (R72). -/
def fieldCount (w : Word) : BitVec 13 := w.extractLsb' 0 13

/-- The field in bits 23:12: `ADDR` of A, AB and AN (R72). -/
def fieldAddr (w : Word) : BitVec 12 := w.extractLsb' 12 12

/-- The command of an opcode with its fields taken from the word (R72, R75). -/
def withFields (o : Opcode) (w : Word) : Instr :=
  match o with
  | .nop => .nop
  | .ncEnc => .ncEnc (field4 w)
  | .ncDec => .ncDec (fieldT w)
  | .keyClr => .keyClr
  | .keyPut => .keyPut (field8 w)
  | .kpSetc => .kpSetc (fieldIdx w) (field4 w)
  | .kpBuild => .kpBuild
  | .kpProbe => .kpProbe
  | .kpFwd => .kpFwd (fieldT w)
  | .kpInv => .kpInv (field4 w)
  | .rowLen => .rowLen (fieldCount w)
  | .rowWr => .rowWr (fieldAddr w) (field8 w)
  | .rowRd => .rowRd (fieldAddr w)
  | .codeWr => .codeWr (fieldAddr w) (field4 w)
  | .codeRd => .codeRd (fieldAddr w)
  | .ppEmbed => .ppEmbed (fieldCount w)
  | .ppExtract => .ppExtract (fieldCount w)
  | .xfEnc => .xfEnc (field8 w)
  | .xfDec => .xfDec (field4 w)
  | .regRd => .regRd (field4 w)
  | .statClr => .statClr

/-- `decode` of 30_encoding.md R78: the opcode is looked up first, then the reserved bits are checked. -/
def decode (w : Word) : Except DecodeError Instr :=
  match opcodeOf (opcField w) with
  | none => .error .illegalOpcode
  | some o => if w &&& o.format.reservedMask = 0 then .ok (withFields o w) else .error .reserved

/-- The instruction the decoder reads from an instruction of `nbits` bits `w`, numbered as opcode_table.json
numbers them. Every command is one 32-bit word (R70) that is moved whole, with no byte order (20_memory.md R54). -/
def decodeTableWord (nbits w : Nat) : Option Instr :=
  match decode (BitVec.ofNat 32 (w % 2 ^ nbits)) with
  | .ok i => some i
  | .error _ => none

/-! The encoder: the opcode in bits 31:24, then the operand area of R72's rows, most significant field first. -/

/-- Format Z. -/
def encodeZ (o : Opcode) : Word := o.code ++ (0 : BitVec 24)

/-- Format N4. -/
def encodeN4 (o : Opcode) (v : Nibble) : Word := o.code ++ (0 : BitVec 20) ++ v

/-- Format B8. -/
def encodeB8 (o : Opcode) (v : Byte) : Word := o.code ++ (0 : BitVec 16) ++ v

/-- Format T12. -/
def encodeT12 (o : Opcode) (t : Triple) : Word := o.code ++ (0 : BitVec 12) ++ t

/-- Format IS. -/
def encodeIS (o : Opcode) (idx sv : Nibble) : Word := o.code ++ (0 : BitVec 16) ++ idx ++ sv

/-- Format A. -/
def encodeA (o : Opcode) (addr : BitVec 12) : Word := o.code ++ addr ++ (0 : BitVec 12)

/-- Format AB. -/
def encodeAB (o : Opcode) (addr : BitVec 12) (d : Byte) : Word := o.code ++ addr ++ (0 : BitVec 4) ++ d

/-- Format AN. -/
def encodeAN (o : Opcode) (addr : BitVec 12) (d : Nibble) : Word := o.code ++ addr ++ (0 : BitVec 8) ++ d

/-- Format C13. -/
def encodeC13 (o : Opcode) (count : BitVec 13) : Word := o.code ++ (0 : BitVec 11) ++ count

/-- The command word of a command (R71, R72, R75). -/
def encode : Instr → Word
  | .nop => encodeZ .nop
  | .ncEnc v => encodeN4 .ncEnc v
  | .ncDec t => encodeT12 .ncDec t
  | .keyClr => encodeZ .keyClr
  | .keyPut v => encodeB8 .keyPut v
  | .kpSetc idx sv => encodeIS .kpSetc idx sv
  | .kpBuild => encodeZ .kpBuild
  | .kpProbe => encodeZ .kpProbe
  | .kpFwd t => encodeT12 .kpFwd t
  | .kpInv v => encodeN4 .kpInv v
  | .rowLen count => encodeC13 .rowLen count
  | .rowWr addr d => encodeAB .rowWr addr d
  | .rowRd addr => encodeA .rowRd addr
  | .codeWr addr d => encodeAN .codeWr addr d
  | .codeRd addr => encodeA .codeRd addr
  | .ppEmbed count => encodeC13 .ppEmbed count
  | .ppExtract count => encodeC13 .ppExtract count
  | .xfEnc v => encodeB8 .xfEnc v
  | .xfDec v => encodeN4 .xfDec v
  | .regRd v => encodeN4 .regRd v
  | .statClr => encodeZ .statClr

end Sys2Proof
end

