-- ==== Sys2Proof/Config.lean ====
section
/-!
DEFINITION. What an implementation of the block fixes (00_scope.md R6, R7) and the values the spec leaves open
(93_implementation_defined.md U1, U2, U4, U6, U7).
-/

namespace Sys2Proof.Config

/-- The size parameters of 00_scope.md R6. They stand in State as the field `params`, which no step changes
(assumption log 3), so that a statement about every state holds for every size. -/
structure Params where
  /-- `ROW_MAX`, entries of ROWBUF. -/
  rowMax  : Nat
  /-- `CODE_MAX`, entries of CODEBUF. -/
  codeMax : Nat
  /-- `KEY_MAX`, bytes of KEYBUF. -/
  keyMax  : Nat
  deriving DecidableEq, Repr

/-- The defaults of R6. -/
def defaultParams : Params := { rowMax := 4096, codeMax := 4096, keyMax := 256 }

/-- The ranges of R6: 1..4096, 1..4096, 1..65535. -/
def Params.inRange (p : Params) : Bool :=
  decide (1 ≤ p.rowMax) && decide (p.rowMax ≤ 4096) &&
  (decide (1 ≤ p.codeMax) && decide (p.codeMax ≤ 4096)) &&
  (decide (1 ≤ p.keyMax) && decide (p.keyMax ≤ 65535))

/-- `HASH256` of R7, an open parameter (U6): "a 256-bit cryptographic hash". Nothing is assumed of it
(assumption log 4). The digest is the number R134 reads it as. -/
opaque hash256 : List Byte → BitVec 256

/-- `RENDER` of R7, an open parameter (U7): "a canonical string rendering of `t`" (assumption log 4). -/
opaque render : Triple → List Byte

/-- What ROWBUF's entry `a` holds after reset number `epoch` until a command writes it (R56, U1, U2):
any value (assumption log 5). -/
opaque rowContent : (epoch a : Nat) → Byte

/-- What CODEBUF's entry `a` holds after reset number `epoch` until a command writes it (R56, U1, U2). -/
opaque codeContent : (epoch a : Nat) → Nibble

/-- What KEYBUF's entry `a` holds after reset number `epoch` until a command writes it (R56, U2). No
command reads such an entry from a state a run reaches (R56). -/
opaque keyContent : (epoch a : Nat) → Byte

/-- Whether the command in progress when reset number `epoch` arrives takes full effect before it
(U4: "any value of the two outcomes"; assumption log 7). -/
opaque commandBeatsReset : (epoch : Nat) → Bool

end Sys2Proof.Config
end

