-- ==== Sys2Proof/Machine/State.lean ====
section
/-!
DEFINITION. The state of the block (10_state.md R22, 20_memory.md R50) as plain data, with what the host does to it
and what it answers, and the state after reset (70_reset_and_hazards.md R271).
-/

namespace Sys2Proof.Machine

/-- A buffer as the entries that hold a value, `(index, value)` with strictly rising indices. An entry that is not
listed has not been written since reset (20_memory.md R56). For the 8-bit buffers this is a list of Host.Cell. -/
abbrev Memory (α : Type) := List (Nat × α)

/-- The three address spaces of 20_memory.md R50. -/
inductive BufferName where
  | rowbuf | codebuf | keybuf
  deriving DecidableEq, Repr

/-- What the host does at the block's port, one event a step (00_scope.md R8; assumption log 1). -/
inductive HostEvent where
  /-- Issue a command word, the response to the previous command having been received (R280). -/
  | command (w : Word)
  /-- Reset between commands (R270). -/
  | reset
  /-- Reset while this command is in progress (U4 of 93_implementation_defined.md). -/
  | resetDuring (w : Word)
  /-- Issue a command word before the response to the previous command, which R280 forbids (U3). -/
  | overlapping (w : Word)
  deriving DecidableEq, Repr

/-- The block's state. The eleven fields from `err` to `keybuf` are the spec's; the last four are the model's own
(INVENTORY.md, State). -/
structure State where
  /-- `ERR`, the sticky error flag (R23). -/
  err       : Bool
  /-- `PT_VALID` (R26). -/
  ptValid   : Bool
  /-- `CAUSE`, the cause code of the most recent error (R24). -/
  cause     : BitVec 4
  /-- `DEGCNT`, the saturating count of DEGRADED responses (R25). -/
  degcnt    : BitVec 16
  /-- `KEYLEN`, the number of key bytes in KEYBUF (R30). -/
  keylen    : BitVec 16
  /-- `ROWLEN`, the number of samples of the current row (R31). -/
  rowlen    : BitVec 13
  /-- `SLOT[0..15]`, the PermutationTable (R27). -/
  slot      : Nibbles16
  /-- `CAND[0..15]`, the candidate slots (R29). -/
  cand      : Nibbles16
  /-- `ROWBUF` (R51). -/
  rowbuf    : Memory Byte
  /-- `CODEBUF` (R53). -/
  codebuf   : Memory Nibble
  /-- `KEYBUF` (R52). -/
  keybuf    : Memory Byte
  /-- The sizes the block was built with (R6); no step changes them. -/
  params    : Config.Params
  /-- The number of resets so far, to which the free values of Config are applied. -/
  epoch     : Nat
  /-- What the host does next, oldest first. -/
  inputs    : List HostEvent
  /-- The response words produced so far, newest first (R80). -/
  responses : List Word
  deriving DecidableEq, Repr

/-- Why the machine stops with a fault. Neither reason arises in a state that meets the invariant of Safety.lean. -/
inductive Fault where
  /-- A buffer access beyond the entries the buffer has (20_memory.md R60). Raised by KEY.PUT and KP.BUILD when
  `KEYLEN` exceeds `KEY_MAX`, and by PP.EMBED and PP.EXTRACT when they would go beyond ROWBUF because `ROWLEN`
  exceeds `ROW_MAX`: values that R22 calls illegal and no command writes. Safe (assumption log 9). -/
  | noSuchEntry (b : BufferName) (index : Nat)
  /-- XF.DEC found no tuple for its Code4 although `PT_VALID` = 1, which R28 rules out. Safe (assumption log 10). -/
  | noTuple
  deriving DecidableEq, Repr

/-- Why the machine refuses to go on. -/
inductive Refusal where
  /-- An instruction without a meaning yet, by its mnemonic. Raised by no arm of exec now. Safe. -/
  | notModelled (mnemonic : String)
  /-- The host issued a command before the response to the previous one (R280; U3: "refuse"). Raised by step. Safe
  (assumption log 8). -/
  | overlappingCommand
  deriving DecidableEq, Repr

/-- The outcome of one command. -/
abbrev Result := Host.Outcome State Fault Refusal

/-- The state after reset (10_state.md R35, 70_reset_and_hazards.md R271), of a block of the default sizes
(R6; assumption log 3) to which the host has done nothing yet. -/
def State.reset : State :=
  { err := false
    ptValid := false
    cause := 0
    degcnt := 0
    keylen := 0
    rowlen := 0
    slot := Vector.replicate 16 0
    cand := Vector.replicate 16 0
    rowbuf := []
    codebuf := []
    keybuf := []
    params := Config.defaultParams
    epoch := 0
    inputs := []
    responses := [] }

end Sys2Proof.Machine
end

