-- ==== Sys2Proof/Machine/Flags.lean ====
section
/-!
DEFINITION. The status a command reports and what it leaves in the status registers: causes (60_exceptions.md R240),
the response word (30_encoding.md R80), the sticky error and its cause (10_state.md R23, R24), the count of degraded
results (R25).
-/

namespace Sys2Proof.Machine

/-- The causes a command can raise, 60_exceptions.md R240. -/
inductive Cause where
  | illegalOpcode | reserved | range | keyFull | notBuilt
  deriving DecidableEq, Repr

/-- The code column of R240. Code 0, NONE, is never raised; codes 6 to 15 are never produced. -/
def Cause.code : Cause → BitVec 4
  | .illegalOpcode => 1
  | .reserved => 2
  | .range => 3
  | .keyFull => 4
  | .notBuilt => 5

/-- The cause of a word that is no command (30_encoding.md R78). -/
def Cause.ofDecodeError : DecodeError → Cause
  | .illegalOpcode => .illegalOpcode
  | .reserved => .reserved

/-- The status of a response (R80). The value 0b11 is never produced. -/
inductive Status where
  | ok | degraded | error
  deriving DecidableEq, Repr

/-- The `ST` field of R80. -/
def Status.bits : Status → BitVec 2
  | .ok => 0b00
  | .degraded => 0b01
  | .error => 0b10

/-- The response word of R80: `ST` in bits 31:30, zeros in 29:20, `RCAUSE` in 19:16, `RESULT` in 15:0. -/
def responseWord (st : Status) (rcause : BitVec 4) (result : BitVec 16) : Word :=
  st.bits ++ (0 : BitVec 10) ++ rcause ++ result

/-- An OK response. -/
def okWord (result : BitVec 16) : Word := responseWord .ok 0 result

/-- A DEGRADED response, whose result is the zero fallback (60_exceptions.md R244). -/
def degradedWord : Word := responseWord .degraded 0 0

/-- An ERROR response with its cause and RESULT zero. -/
def errorWord (c : Cause) : Word := responseWord .error c.code 0

/-- `zext_16` of 00_scope.md R9. -/
def zext16 {n : Nat} (v : BitVec n) : BitVec 16 := v.setWidth 16

/-- `DEGCNT` after one more DEGRADED response: plus one, saturating at 0xFFFF (R25). -/
def degcntNext (d : BitVec 16) : BitVec 16 := if d ≠ 0xFFFF then d + 1 else d

/-- Count one DEGRADED response (R25). -/
def State.countDegraded (s : State) : State := { s with degcnt := degcntNext s.degcnt }

/-- `ERR <- 1` and `CAUSE <- cause`, all that an error changes in the block's state (R243). -/
def State.latch (c : Cause) (s : State) : State := { s with err := true, cause := c.code }

/-- `ERR`, `CAUSE` and `DEGCNT` cleared (43_transform_control.md R224). -/
def State.clearStatus (s : State) : State := { s with err := false, cause := 0, degcnt := 0 }

end Sys2Proof.Machine
end

