-- ==== Sys2Proof/Machine/Tables.lean ====
section
/-!
DEFINITION. The constant tables of the block (10_state.md R33) and the two ways a sixteen-entry array is used: by
index and by value.
-/

namespace Sys2Proof.Machine

/-- Entry `i` of a sixteen-entry array. -/
def entry {α : Type} (v : Vector α 16) (i : Nibble) : α := v[i.toNat]'(i.isLt)

/-- The sixteen indices in the fixed order of 41_keyed_permutation.md R131. -/
def indices : List Nibble := [0, 1, 2, 3, 4, 5, 6, 7] ++ [8, 9, 10, 11, 12, 13, 14, 15]

/-- The first index at which a sixteen-entry array holds a value ("if T = EVID[i] for some i", R155; "if SLOT[i] = V
for some i", R157). -/
def indexOf {α : Type} [DecidableEq α] (v : Vector α 16) (x : α) : Option Nibble :=
  indices.find? fun i => entry v i = x

/-- `LUT_ENC[0..15]` of 40_nibble_codec.md R106 (its normative column). -/
def lutEncTable : Vector Triple 16 :=
  #v[0xC27, 0x981, 0xB71, 0xF47, 0xC61, 0xA61, 0x946, 0xE61,
     0xD45, 0xC45, 0xB51, 0xA45, 0x951, 0xF51, 0xF45, 0xE51]

/-- `LUT_ENC[n]`. -/
def lutEnc (n : Nibble) : Triple := entry lutEncTable n

/-- `LUT_DEC[T]` of 40_nibble_codec.md R108, the inverse of `LUT_ENC`; `none` where `T` is not in CANON. -/
def lutDec (t : Triple) : Option Nibble := indexOf lutEncTable t

/-- `EVID[0..15]` of 41_keyed_permutation.md R131. -/
def evidTable : Vector Triple 16 :=
  #v[0x946, 0x951, 0x981, 0xA45, 0xA61, 0xB51, 0xB71, 0xC27,
     0xC45, 0xC61, 0xD45, 0xE51, 0xE61, 0xF45, 0xF47, 0xF51]

/-- `EVID[i]`. -/
def evid (i : Nibble) : Triple := entry evidTable i

/-- The index of an evidence tuple; `none` for any other triple. -/
def evidIndex (t : Triple) : Option Nibble := indexOf evidTable t

/-- `IDX_OF_N[0..15]` of 41_keyed_permutation.md R133. -/
def idxOfNTable : Vector Nibble 16 := #v[7, 2, 6, 14, 9, 4, 0, 12, 10, 8, 5, 3, 1, 15, 13, 11]

/-- `IDX_OF_N[n]`. -/
def idxOfN (n : Nibble) : Nibble := entry idxOfNTable n

/-- `N_OF_IDX[0..15]`, the last column of 41_keyed_permutation.md R131. -/
def nOfIdxTable : Vector Nibble 16 := #v[6, 12, 1, 11, 5, 10, 2, 0, 9, 4, 8, 15, 7, 14, 3, 13]

/-- `N_OF_IDX[i]`. -/
def nOfIdx (i : Nibble) : Nibble := entry nOfIdxTable i

end Sys2Proof.Machine
end

