-- ==== Sys2Proof/Machine/Ops.lean ====
section
/-!
DEFINITION. The named operations the meanings are made of: buffer entries (00_scope.md R10 `MemRead`, `MemWrite`;
20_memory.md), the response (`respond`), an error (`raise`, 60_exceptions.md R243), a degraded result (R244), the
loops of PP.EMBED and PP.EXTRACT, the probing step, and accepting a reset.
-/

namespace Sys2Proof.Machine

/-! Buffers as data. -/

/-- The value a buffer holds at an index; `none` for an entry not written since reset (20_memory.md R56). -/
def Memory.read {α : Type} : Memory α → Nat → Option α
  | [], _ => none
  | (b, x) :: m, a => if a = b then some x else Memory.read m a

/-- A buffer after a write, in canonical form. -/
def Memory.write {α : Type} : Memory α → Nat → α → Memory α
  | [], a, v => [(a, v)]
  | (b, x) :: m, a, v =>
    if a < b then (a, v) :: (b, x) :: m
    else if a = b then (a, v) :: m
    else (b, x) :: Memory.write m a v

/-- The canonical form: indices strictly rising. An unlisted entry holds no value (R56), so no listed entry equals
what an unlisted one holds. -/
def Memory.wf {α : Type} : Memory α → Bool
  | [] => true
  | (a, _) :: m => m.all (fun c => decide (a < c.1)) && Memory.wf m

/-! Buffer entries as a command reads and writes them. -/

/-- `MemRead(ROWBUF, a)` (R10). An entry not written since reset reads as a free value, the same at every read
(R56, R58, R62; U1 "a model may instead take any value"; assumption log 5). -/
def State.rowEntry (s : State) (a : Nat) : Byte := (s.rowbuf.read a).getD (Config.rowContent s.epoch a)

/-- `MemRead(CODEBUF, a)`. -/
def State.codeEntry (s : State) (a : Nat) : Nibble := (s.codebuf.read a).getD (Config.codeContent s.epoch a)

/-- `MemRead(KEYBUF, a)`. -/
def State.keyEntry (s : State) (a : Nat) : Byte := (s.keybuf.read a).getD (Config.keyContent s.epoch a)

/-- `MemWrite(ROWBUF, a, v)`. -/
def State.writeRow (a : Nat) (v : Byte) (s : State) : State := { s with rowbuf := s.rowbuf.write a v }

/-- `MemWrite(CODEBUF, a, v)`. -/
def State.writeCode (a : Nat) (v : Nibble) (s : State) : State := { s with codebuf := s.codebuf.write a v }

/-- `MemWrite(KEYBUF, a, v)`. -/
def State.writeKey (a : Nat) (v : Byte) (s : State) : State := { s with keybuf := s.keybuf.write a v }

/-! How a command ends. -/

/-- Emit one response word (30_encoding.md R80; assumption log 2). -/
def State.answer (w : Word) (s : State) : State := { s with responses := w :: s.responses }

/-- `respond(OK, result)` (R10, R80). -/
def respondOk (result : BitVec 16) (s : State) : Result := .next (s.answer (okWord result))

/-- A DEGRADED response with the zero fallback, counted in `DEGCNT` (60_exceptions.md R244). -/
def degrade (s : State) : Result := .next (s.countDegraded.answer degradedWord)

/-- `raise Error(cause)` (R10, 60_exceptions.md R243): taking an error, the one operation every error goes through.
Nothing changes but `ERR` and `CAUSE`, and the response is ERROR with the cause and RESULT 0. Nothing is saved and
nothing returns from it (R249, R251). -/
def raise (c : Cause) (s : State) : Result := .next ((s.latch c).answer (errorWord c))

/-! The permutation. -/

/-- `while used[s] = 1: s <- (s + 1) mod 16` of 41_keyed_permutation.md R135, for at most `fuel` moves. -/
def probeFrom (used : BitVec 16) : (fuel : Nat) → Nibble → Nibble
  | 0, s => s
  | fuel + 1, s => if used.getLsbD s.toNat then probeFrom used fuel (s + 1) else s

/-- The bitmap with slot `s` marked used. -/
def markUsed (used : BitVec 16) (s : Nibble) : BitVec 16 := used ||| (1#16 <<< s.toNat)

/-- The slots the probing step assigns to a list of candidates, first candidate first (R135). Sixteen moves are
more than the inner loop can make. -/
def assignSlots (used : BitVec 16) : List Nibble → List Nibble
  | [] => []
  | c :: cs =>
    let s := probeFrom used 16 c
    s :: assignSlots (markUsed used s) cs

/-- `probe()` of R135 as a function from `CAND` to `SLOT`. -/
def probe (cand : Nibbles16) : Nibbles16 := Vector.ofFn fun i : Fin 16 => (assignSlots 0 cand.toList).getD i.val 0

/-- The key: KEYBUF's first `KEYLEN` bytes in order (10_state.md R30). -/
def State.key (s : State) : List Byte := (List.range s.keylen.toNat).map s.keyEntry

/-- `SLOT_OF(key, t)` of R134: bits 3:0 of the digest of the key followed by the rendering of `t`. -/
def slotOf (key : List Byte) (t : Triple) : Nibble :=
  (Config.hash256 (key ++ Config.render t)).extractLsb' 0 4

/-- The sixteen candidates of a key (R150). -/
def candidatesOf (key : List Byte) : Nibbles16 := evidTable.map (slotOf key)

/-- `CAND` written whole. -/
def State.setCand (v : Nibbles16) (s : State) : State := { s with cand := v }

/-- `SLOT` written whole and marked a valid table (R150, R152). -/
def State.setTable (v : Nibbles16) (s : State) : State := { s with slot := v, ptValid := true }

/-- `KEYLEN` written and the table invalidated, as every key write does (41_keyed_permutation.md R140, R141). -/
def State.setKeylen (n : BitVec 16) (s : State) : State := { s with keylen := n, ptValid := false }

/-- `ROWLEN` written (42_pixel_plane.md R175). -/
def State.setRowlen (n : BitVec 13) (s : State) : State := { s with rowlen := n }

/-! Reset. -/

/-- The block accepts a reset (70_reset_and_hazards.md R270, R271): every register at its reset value, every buffer
entry unspecified again, as the content of the next `epoch`. What the host still has to do and what it has received
are not the block's, and the sizes are fixed. -/
def State.acceptReset (s : State) : State :=
  { State.reset with
    params := s.params
    epoch := s.epoch + 1
    inputs := s.inputs
    responses := s.responses }

end Sys2Proof.Machine
end

