-- ==== Sys2Proof/Machine/Operands.lean ====
section
/-!
DEFINITION. What a command's operand stands for: a Code4 as two fragments of a row (42_pixel_plane.md R170 to R173),
a selector as a register view (43_transform_control.md R222), the limits an address or count is held to (60_exceptions.md R240).
-/

namespace Sys2Proof.Machine

/-! Fragments. -/

/-- `high = code>>2 & 0b11` (R170). -/
def highFragment (c : Nibble) : Fragment := c.extractLsb' 2 2

/-- `low = code & 0b11` (R170). -/
def lowFragment (c : Nibble) : Fragment := c.extractLsb' 0 2

/-- Whitening of the fragment at an odd position (R171). -/
def whiten (f : Fragment) : Fragment := f ^^^ 0b11

/-- `frag(c_seq, j)` of R172: the stored fragment at position `j` of a sequence of codes. -/
def fragmentAt (codes : Nat → Nibble) (j : Nat) : Fragment :=
  if j % 2 = 0 then highFragment (codes (j / 2)) else whiten (lowFragment (codes (j / 2)))

/-- `(sample & 0xFC) | f` (R185). -/
def mergeFragment (sample : Byte) (f : Fragment) : Byte := (sample &&& 0xFC) ||| f.setWidth 8

/-- Bits 1:0 of a sample (R190). -/
def lowBits (sample : Byte) : Fragment := sample.extractLsb' 0 2

/-- `{hi, lo}`: the Code4 two samples of a row carry, the second one whitened (R190). -/
def recombine (even odd : Byte) : Nibble := lowBits even ++ whiten (lowBits odd)

/-- The loop of PP.EMBED for `j` in `0 .. n-1`, in rising order (R185). -/
def embedLoop : (n : Nat) → State → State
  | 0, s => s
  | j + 1, s =>
    let t := embedLoop j s
    t.writeRow j (mergeFragment (t.rowEntry j) (fragmentAt t.codeEntry j))

/-- The loop of PP.EXTRACT for `k` in `0 .. n-1`, in rising order (R190). -/
def extractLoop : (n : Nat) → State → State
  | 0, s => s
  | k + 1, s =>
    let t := extractLoop k s
    t.writeCode k (recombine (t.rowEntry (2 * k)) (t.rowEntry (2 * k + 1)))

/-- `L` of R185: the number of samples PP.EMBED writes. -/
def embedLength (s : State) (count : BitVec 13) : Nat := min (2 * count.toNat) s.rowlen.toNat

/-- `K` of R190: the number of codes PP.EXTRACT writes. -/
def extractLength (s : State) (count : BitVec 13) : Nat := min count.toNat (s.rowlen.toNat / 2)

/-! Register views. -/

/-- `{v[k+3], v[k+2], v[k+1], v[k]}` (R222). -/
def fourOf (v : Nibbles16) (k : Nibble) : BitVec 16 :=
  entry v (k + 3) ++ entry v (k + 2) ++ entry v (k + 1) ++ entry v k

/-- STATUS of R222: bit 0 `ERR`, bit 1 `PT_VALID`, the rest zero. -/
def statusView (s : State) : BitVec 16 :=
  (0 : BitVec 14) ++ BitVec.ofBool s.ptValid ++ BitVec.ofBool s.err

/-- `view(V)` of R222; `none` where `V` > 12. -/
def regView (s : State) (v : Nibble) : Option (BitVec 16) :=
  match v.toNat with
  | 0 => some (statusView s)
  | 1 => some (zext16 s.cause)
  | 2 => some s.degcnt
  | 3 => some s.keylen
  | 4 => some (zext16 s.rowlen)
  | 5 => some (fourOf s.slot 0)
  | 6 => some (fourOf s.slot 4)
  | 7 => some (fourOf s.slot 8)
  | 8 => some (fourOf s.slot 12)
  | 9 => some (fourOf s.cand 0)
  | 10 => some (fourOf s.cand 4)
  | 11 => some (fourOf s.cand 8)
  | 12 => some (fourOf s.cand 12)
  | _ => none

end Sys2Proof.Machine
end

