-- ==== Sys2Proof/Machine/Control.lean ====
section
/-!
DEFINITION. The control commands NOP, REG.RD and STAT.CLR (43_transform_control.md section 2).
-/

namespace Sys2Proof.Machine

/-- NOP, R220. -/
def execNop (s : State) : Result := respondOk 0 s

/-- REG.RD, R222. -/
def execRegRd (v : Nibble) (s : State) : Result :=
  match regView s v with
  | some x => respondOk x s
  | none => raise .range s

/-- STAT.CLR, R224. -/
def execStatClr (s : State) : Result := respondOk 0 s.clearStatus

end Sys2Proof.Machine
end

