-- ==== Sys2Proof/Machine/KeyedPermutation.lean ====
section
/-!
DEFINITION. KP, the keyed permutation: KEY.CLR, KEY.PUT, KP.SETC, KP.BUILD, KP.PROBE, KP.FWD and KP.INV
(41_keyed_permutation.md).
-/

namespace Sys2Proof.Machine

/-- KEY.CLR, R140. -/
def execKeyClr (s : State) : Result := respondOk 0 (s.setKeylen 0)

/-- KEY.PUT, R141. A `KEYLEN` beyond `KEY_MAX`, which no run reaches, would write an entry that does not exist
(assumption log 9). -/
def execKeyPut (v : Byte) (s : State) : Result :=
  if s.keylen.toNat = s.params.keyMax then raise .keyFull s
  else if s.params.keyMax < s.keylen.toNat then .fault (.noSuchEntry .keybuf s.keylen.toNat)
  else respondOk 0 ((s.writeKey s.keylen.toNat v).setKeylen (s.keylen + 1))

/-- KP.SETC, R145. -/
def execKpSetc (idx sv : Nibble) (s : State) : Result :=
  respondOk 0 (s.setCand (s.cand.set idx.toNat sv idx.isLt))

/-- KP.BUILD, R150. A `KEYLEN` beyond `KEY_MAX`, which no run reaches, would read an entry that does not exist
(assumption log 9). -/
def execKpBuild (s : State) : Result :=
  if s.params.keyMax < s.keylen.toNat then .fault (.noSuchEntry .keybuf s.params.keyMax)
  else
    let cand := candidatesOf s.key
    respondOk 0 ((s.setCand cand).setTable (probe cand))

/-- KP.PROBE, R152. -/
def execKpProbe (s : State) : Result := respondOk 0 (s.setTable (probe s.cand))

/-- KP.FWD, R155. -/
def execKpFwd (t : Triple) (s : State) : Result :=
  if s.ptValid then
    match evidIndex t with
    | some i => respondOk (zext16 (entry s.slot i)) s
    | none => degrade s
  else raise .notBuilt s

/-- KP.INV, R157, with its unreachable fallback as written (U14). -/
def execKpInv (v : Nibble) (s : State) : Result :=
  if s.ptValid then
    match indexOf s.slot v with
    | some i => respondOk (zext16 (evid i)) s
    | none => degrade s
  else raise .notBuilt s

end Sys2Proof.Machine
end

