-- ==== Sys2Proof/Machine/NibbleCodec.lean ====
section
/-!
DEFINITION. NC, the nibble codec: NC.ENC and NC.DEC (40_nibble_codec.md).
-/

namespace Sys2Proof.Machine

/-- NC.ENC, R110. -/
def execNcEnc (v : Nibble) (s : State) : Result := respondOk (zext16 (lutEnc v)) s

/-- NC.DEC, R112: a non-canonical triple is undecodable, not an error. -/
def execNcDec (t : Triple) (s : State) : Result :=
  match lutDec t with
  | some n => respondOk (zext16 n) s
  | none => degrade s

end Sys2Proof.Machine
end

