-- ==== Sys2Proof/Machine/PixelPlane.lean ====
section
/-!
DEFINITION. PP, pixel-plane pack and unpack: ROW.LEN, ROW.WR, ROW.RD, CODE.WR, CODE.RD, PP.EMBED and PP.EXTRACT
(42_pixel_plane.md).
-/

namespace Sys2Proof.Machine

/-- ROW.LEN, R175. -/
def execRowLen (count : BitVec 13) (s : State) : Result :=
  if s.params.rowMax < count.toNat then raise .range s
  else respondOk 0 (s.setRowlen count)

/-- ROW.WR, R176. -/
def execRowWr (addr : BitVec 12) (d : Byte) (s : State) : Result :=
  if s.params.rowMax ≤ addr.toNat then raise .range s
  else respondOk 0 (s.writeRow addr.toNat d)

/-- ROW.RD, R177. -/
def execRowRd (addr : BitVec 12) (s : State) : Result :=
  if s.params.rowMax ≤ addr.toNat then raise .range s
  else respondOk (zext16 (s.rowEntry addr.toNat)) s

/-- CODE.WR, R178. -/
def execCodeWr (addr : BitVec 12) (d : Nibble) (s : State) : Result :=
  if s.params.codeMax ≤ addr.toNat then raise .range s
  else respondOk 0 (s.writeCode addr.toNat d)

/-- CODE.RD, R179. -/
def execCodeRd (addr : BitVec 12) (s : State) : Result :=
  if s.params.codeMax ≤ addr.toNat then raise .range s
  else respondOk (zext16 (s.codeEntry addr.toNat)) s

/-- PP.EMBED, R185. A `ROWLEN` beyond `ROW_MAX`, which no run reaches, could lead beyond ROWBUF
(assumption log 9). -/
def execPpEmbed (count : BitVec 13) (s : State) : Result :=
  if s.params.codeMax < count.toNat then raise .range s
  else
    let n := embedLength s count
    if s.params.rowMax < n then .fault (.noSuchEntry .rowbuf s.params.rowMax)
    else respondOk (BitVec.ofNat 16 n) (embedLoop n s)

/-- PP.EXTRACT, R190. A `ROWLEN` beyond `ROW_MAX`, which no run reaches, could lead beyond ROWBUF
(assumption log 9). -/
def execPpExtract (count : BitVec 13) (s : State) : Result :=
  if s.params.codeMax < count.toNat then raise .range s
  else
    let n := extractLength s count
    if s.params.rowMax < 2 * n then .fault (.noSuchEntry .rowbuf s.params.rowMax)
    else respondOk (BitVec.ofNat 16 n) (extractLoop n s)

end Sys2Proof.Machine
end

