-- ==== Sys2Proof/Machine/Transform.lean ====
section
/-!
DEFINITION. The per-sample transforms XF.ENC and XF.DEC (43_transform_control.md section 1).
-/

namespace Sys2Proof.Machine

/-- XF.ENC, R210: the top four bits of the sample, its tuple's index, its slot. -/
def execXfEnc (v : Byte) (s : State) : Result :=
  if s.ptValid then respondOk (zext16 (entry s.slot (idxOfN (v.extractLsb' 4 4)))) s
  else raise .notBuilt s

/-- XF.DEC, R212: `inv(V)` is the index with `SLOT[i] = V`, which R28 says there is whenever `PT_VALID` = 1; where
an unreachable state has none, the spec gives no result (assumption log 10). -/
def execXfDec (v : Nibble) (s : State) : Result :=
  if s.ptValid then
    match indexOf s.slot v with
    | some i => respondOk (zext16 (nOfIdx i) <<< 4) s
    | none => .fault .noTuple
  else raise .notBuilt s

end Sys2Proof.Machine
end

