-- ==== Sys2Proof/Machine/Dispatch.lean ====
section
/-! DEFINITION. One arm per command (30_encoding.md R75), each a direct call of its meaning. -/

namespace Sys2Proof.Machine

/-- The command's own rule, run once the word has decoded (30_encoding.md R78). -/
def exec (i : Instr) (s : State) : Host.Outcome State Fault Refusal :=
  match i with
  | .nop => Sys2Proof.Machine.execNop s
  -- NC
  | .ncEnc v => Sys2Proof.Machine.execNcEnc v s
  | .ncDec t => Sys2Proof.Machine.execNcDec t s
  -- KP
  | .keyClr => Sys2Proof.Machine.execKeyClr s
  | .keyPut v => Sys2Proof.Machine.execKeyPut v s
  | .kpSetc idx sv => Sys2Proof.Machine.execKpSetc idx sv s
  | .kpBuild => Sys2Proof.Machine.execKpBuild s
  | .kpProbe => Sys2Proof.Machine.execKpProbe s
  | .kpFwd t => Sys2Proof.Machine.execKpFwd t s
  | .kpInv v => Sys2Proof.Machine.execKpInv v s
  -- PP
  | .rowLen count => Sys2Proof.Machine.execRowLen count s
  | .rowWr addr d => Sys2Proof.Machine.execRowWr addr d s
  | .rowRd addr => Sys2Proof.Machine.execRowRd addr s
  | .codeWr addr d => Sys2Proof.Machine.execCodeWr addr d s
  | .codeRd addr => Sys2Proof.Machine.execCodeRd addr s
  | .ppEmbed count => Sys2Proof.Machine.execPpEmbed count s
  | .ppExtract count => Sys2Proof.Machine.execPpExtract count s
  -- XF
  | .xfEnc v => Sys2Proof.Machine.execXfEnc v s
  | .xfDec v => Sys2Proof.Machine.execXfDec v s
  -- control
  | .regRd v => Sys2Proof.Machine.execRegRd v s
  | .statClr => Sys2Proof.Machine.execStatClr s

end Sys2Proof.Machine
end

