-- ==== Sys2Proof/Machine/Port.lean ====
section
/-!
DEFINITION. The block's port: what each thing the host can do makes of the state (00_scope.md R8, 30_encoding.md R78,
70_reset_and_hazards.md R270, R280).
-/

namespace Sys2Proof.Machine

/-- A command word arrives: decode it (R78), then raise the decode error or run the command's own rule. -/
def runCommand (w : Word) (s : State) : Result :=
  match decode w with
  | .error e => raise (Cause.ofDecodeError e) s
  | .ok i => exec i s

/-- A reset arrives while a command is in progress (R270, U4): either the command is wholly performed, with its
response, or not at all, with none; then the reset. Which of the two is a free value (assumption log 7). -/
def runResetDuring (w : Word) (s : State) : Result :=
  if Config.commandBeatsReset s.epoch then
    match runCommand w s with
    | .next t => .next t.acceptReset
    | .fault r => .fault r
    | .refused r => .refused r
  else .next s.acceptReset

/-- One host event. -/
def runEvent (e : HostEvent) (s : State) : Result :=
  match e with
  | .command w => runCommand w s
  | .reset => .next s.acceptReset
  | .resetDuring w => runResetDuring w s
  | .overlapping _ => .refused .overlappingCommand

/-- Take the host's next event off its list and run it. When the host does nothing, nothing changes
(assumption log 14). -/
def runPort (s : State) : Result :=
  match s.inputs with
  | [] => .next s
  | e :: rest => runEvent e { s with inputs := rest }

/-- The state with one more command in front of what the host does next. -/
def State.withCommand (w : Word) (s : State) : State := { s with inputs := .command w :: s.inputs }

end Sys2Proof.Machine
end

