-- ==== Sys2Proof/Machine/Step.lean ====
section
/-!
DEFINITION. One step of the block: one host event, to completion (00_scope.md R8). The block fetches nothing
(10_state.md R21): its next command is the one the host issues next.
-/

namespace Sys2Proof.Machine

/-- One step. -/
def step (s : State) : Host.Outcome State Fault Refusal := runPort s

/-- The state whose next step receives the command of `nbits` bits `w`, numbered as opcode_table.json numbers them:
the word stands in front of what the host does next (assumption log 1). -/
def State.withFetchWord (s : State) (nbits w : Nat) : State :=
  s.withCommand (BitVec.ofNat 32 (w % 2 ^ nbits))

end Sys2Proof.Machine
end

