-- ==== Sys2Proof/Machine/NoteNaming.lean ====
section
/-!
DEFINITION. The source's nibble codec, from which the table of 40_nibble_codec.md R106 is derived: the forward
algorithm of R101 with the note naming of R104, and the decode chain of R107 for canonical triples. The block itself
uses the tables (Machine/Tables.lean); this file lets their derivation be stated and checked. The logarithm and the
powers are compared exactly, as whole numbers (assumption log 15).
-/

namespace Sys2Proof.Machine.NoteNaming

/-- The greatest number from `base` to `base + 2^bits - 1` that passes a test, for a test that every smaller number
then passes too: its bits from the most significant down. -/
def greatest (test : Nat → Bool) : (bits base : Nat) → Nat
  | 0, base => base
  | k + 1, base => if test (base + 2 ^ k) then greatest test k (base + 2 ^ k) else greatest test k base

/-! Forward, R101. -/

/-- Step 1: `freq = 16*n + 9`. -/
def freqOf (n : Nibble) : Nat := 16 * n.toNat + 9

/-- Step 2, R104: `m = round(69 + 12 * log2(freq / 440))`, the greatest `m` with `m - 1/2` not above
`69 + 12 * log2(freq / 440)`, that is with `440^24 * 2^(2m) ≤ freq^24 * 2^139`. -/
def noteNumber (freq : Nat) : Nat :=
  greatest (fun m => decide (440 ^ 24 * 2 ^ (2 * m) ≤ freq ^ 24 * 2 ^ 139)) 7 0

/-- The sharp symbol `♯` (U+266F). -/
def sharp : Char := '♯'

/-- `NAMES` of R104. -/
def names : List (List Char) :=
  [['C'], ['C', sharp], ['D'], ['D', sharp], ['E'], ['F']] ++
  [['F', sharp], ['G'], ['G', sharp], ['A'], ['A', sharp], ['B']]

/-- The decimal digit of a number below ten. -/
def digit (k : Nat) : Char := Char.ofNat (48 + k)

/-- The octave `m div 12 - 1` in decimal, with a hyphen-minus when negative (R104). Note numbers here are at most
127, so the octave has one digit. -/
def octaveText (m : Nat) : List Char := if m < 12 then ['-', digit 1] else [digit (m / 12 - 1)]

/-- The note name of R104: `NAMES[m mod 12]`, then the octave. -/
def noteName (m : Nat) : List Char := names.getD (m % 12) [] ++ octaveText m

/-- The UTF-8 bytes of a text (step 3 of R101). -/
def utf8 (cs : List Char) : List Byte := cs.flatMap fun c => (String.utf8EncodeChar c).map (·.toBitVec)

/-- Step 3: "replace the byte sequence corresponding to a sharp symbol with the single byte `0x69`". The sharp
symbol is E2 99 AF in UTF-8. -/
def replaceSharp : List Byte → List Byte
  | 0xE2 :: 0x99 :: 0xAF :: bs => 0x69 :: replaceSharp bs
  | b :: bs => b :: replaceSharp bs
  | [] => []

/-- The substitution table, 40_nibble_codec.md R102. -/
def substitution : List (Byte × Nibble) :=
  [(0x41, 0xF), (0x42, 0xE), (0x43, 0xD), (0x44, 0xC), (0x45, 0xB), (0x46, 0xA), (0x47, 0x9)] ++
  [(0x30, 0x8), (0x31, 0x7), (0x32, 0x6), (0x33, 0x5), (0x69, 0x4), (0x23, 0x3), (0x2D, 0x2)]

/-- The default code of step 4, which is also the pad code of step 5. -/
def padCode : Nibble := 0x1

/-- Step 4: the code of a byte, the default code if the byte is not in the table. -/
def codeOf (b : Byte) : Nibble := ((substitution.find? fun p => p.1 == b).map (·.2)).getD padCode

/-- Step 5: the first three codes, right-padded, as the word of 00_scope.md R11. -/
def packThree (codes : List Nibble) : Triple :=
  codes.getD 0 padCode ++ codes.getD 1 padCode ++ codes.getD 2 padCode

/-- `encode_nibble`, R101. -/
def encodeNibble (n : Nibble) : Triple :=
  packThree ((replaceSharp (utf8 (noteName (noteNumber (freqOf n))))).map codeOf)

/-! Decode, R107, for canonical triples. -/

/-- The byte of a code by the inverse of the substitution table; the pad code stands for no character
(90_conflicts.md C4), and so does code 0x0, which no entry produces. -/
def byteOf (c : Nibble) : Option Byte := (substitution.find? fun p => p.2 == c).map (·.1)

/-- The three codes of a triple, first code first (00_scope.md R11). -/
def codesOf (t : Triple) : List Nibble := [t.extractLsb' 8 4, t.extractLsb' 4 4, t.extractLsb' 0 4]

/-- The byte 0x69 restored to the sharp symbol, every other byte as its character. -/
def charOf (b : Byte) : Char := if b = 0x69 then sharp else Char.ofNat b.toNat

/-- The octave number a text spells: one digit, or `-1`. The result is the octave plus one, which is what R104
divides out of the note number. -/
def octavePlusOne : List Char → Option Nat
  | ['-', '1'] => some 0
  | [c] => if '0' ≤ c ∧ c ≤ '9' then some (c.toNat - 48 + 1) else none
  | _ => none

/-- The note number a note name spells: one of `NAMES`, then an octave. -/
def parseNote (cs : List Char) : Option Nat :=
  let tryName (k : Nat) (name : List Char) : Option Nat :=
    if name.isPrefixOf cs then (octavePlusOne (cs.drop name.length)).map fun o => 12 * o + k else none
  (names.zipIdx.filterMap fun p => tryName p.2 p.1).head?

/-- The equal-tempered frequency `440 * 2^((m - 69)/12)` rounded: the greatest `r` with
`(2r - 1)^12 * 2^69 ≤ 880^12 * 2^m`. -/
def roundedFreq (m : Nat) : Nat :=
  greatest (fun r => decide ((2 * r - 1) ^ 12 * 2 ^ 69 ≤ 880 ^ 12 * 2 ^ m)) 8 0

/-- The correction table, 40_nibble_codec.md R103. -/
def correction : List (Nat × Nat) :=
  [(9, 9), (24, 25), (41, 41), (58, 57), (73, 73), (87, 89), (104, 105), (123, 121)] ++
  [(139, 137), (156, 153), (165, 169), (185, 185), (196, 201), (220, 217), (233, 233), (247, 249)]

/-- `decode_triple` on a canonical triple, R107: `n = (freq - 9) / 16` of the corrected frequency. -/
def decodeTriple (t : Triple) : Option Nibble :=
  match parseNote (((codesOf t).filterMap byteOf).map charOf) with
  | none => none
  | some m =>
    match correction.find? fun p => p.1 == roundedFreq m with
    | none => none
    | some p => some (BitVec.ofNat 4 ((p.2 - 9) / 16))

end Sys2Proof.Machine.NoteNaming
end

