-- ==== Sys2Proof/Safety.lean ====
section
/-!
DEFINITION. What holds of the block in every state a run reaches, and what a response may look like.
-/

namespace Sys2Proof.Safety

open Sys2Proof.Machine

/-- A map on sixteen slots is a bijection (10_state.md R28). -/
structure Bijective (v : Nibbles16) : Prop where
  injective  : ∀ i j : Nibble, entry v i = entry v j → i = j
  surjective : ∀ c : Nibble, ∃ i : Nibble, entry v i = c

/-- The response words R80 and U10 of 93_implementation_defined.md allow: OK with any RESULT, DEGRADED with the zero
fallback (60_exceptions.md R244), ERROR with a cause of R240 and RESULT zero; bits 29:20 zero in each. -/
def LegalResponse (r : Word) : Prop :=
  (∃ result : BitVec 16, r = okWord result) ∨ r = degradedWord ∨ ∃ c : Cause, r = errorWord c

/-- Every entry a buffer lists is one the buffer has. -/
def Within {α : Type} (size : Nat) (m : Memory α) : Prop := ∀ c ∈ m, c.1 < size

/-- The invariant of the block. It holds at reset and every step keeps it. -/
structure BlockInv (s : State) : Prop where
  /-- The sizes are in the ranges of 00_scope.md R6. -/
  sizes       : s.params.inRange = true
  /-- The three buffers are in canonical form. -/
  rowCanon    : s.rowbuf.wf = true
  codeCanon   : s.codebuf.wf = true
  keyCanon    : s.keybuf.wf = true
  /-- No buffer lists an entry it does not have (20_memory.md R50). -/
  rowWithin   : Within s.params.rowMax s.rowbuf
  codeWithin  : Within s.params.codeMax s.codebuf
  keyWithin   : Within s.params.keyMax s.keybuf
  /-- `CAUSE` is 0 to 5 (10_state.md R22). -/
  causeLegal  : s.cause.toNat ≤ 5
  /-- `CAUSE` = 0 means no error since reset or the last STAT.CLR, and so does `ERR` = 0 (R23, R24). -/
  errCause    : s.err = true ↔ s.cause ≠ 0
  /-- `KEYLEN` is 0 to `KEY_MAX`, `ROWLEN` is 0 to `ROW_MAX` (R22). -/
  keylenLegal : s.keylen.toNat ≤ s.params.keyMax
  rowlenLegal : s.rowlen.toNat ≤ s.params.rowMax
  /-- KEY.PUT has written every byte of the key (20_memory.md R56). -/
  keyWritten  : ∀ a, a < s.keylen.toNat → ∃ b, s.keybuf.read a = some b
  /-- Whenever `PT_VALID` = 1, `SLOT` is a bijection (R28). -/
  tableLegal  : s.ptValid = true → Bijective s.slot
  /-- Every response produced is one R80 allows. -/
  answered    : ∀ r ∈ s.responses, LegalResponse r

/-- The host keeps R280: it issues no command before it has the response to the previous one. -/
def KeepsHandshake (s : State) : Prop := ∀ w, HostEvent.overlapping w ∉ s.inputs

/-- A run of `k` steps neither faults nor refuses. -/
def Safe (k : Nat) (s : State) : Prop := ∃ t, core.run k s = .next t

end Sys2Proof.Safety
end

