-- ==== Sys2Proof/Certificates/Slice0/Obligations.lean ====
section
/-!
DEFINITION. The statements about the block, from the numbered rules of spec/. The tables and words of the rules are
written out here again, from the rules, so that a statement does not rest on the model's own tables.
-/

open Sys2Proof Sys2Proof.Machine Sys2Proof.Safety

namespace Sys2Proof.Statements

/-! What the rules say, in the rules' own terms. -/

/-- The state after `respond(OK, result)` (R10, R80): one more response word, nothing else. -/
def afterOk (result : BitVec 16) (s : State) : State :=
  { s with responses := (0b00#2 ++ 0#10 ++ 0#4 ++ result) :: s.responses }

/-- The state after a DEGRADED response (R25, R244): `DEGCNT` one up and saturating, RESULT 0. -/
def afterDegraded (s : State) : State :=
  { s with
    degcnt := if s.degcnt = 0xFFFF then 0xFFFF else s.degcnt + 1
    responses := 0x40000000 :: s.responses }

/-- The state after `raise Error(cause)` (R243): `ERR`, `CAUSE` and the ERROR response, nothing else. -/
def afterError (cause : BitVec 4) (s : State) : State :=
  { s with
    err := true
    cause := cause
    responses := (0b10#2 ++ 0#10 ++ cause ++ 0#16) :: s.responses }

/-- How words with opcode `opc` run (R72, R73, R75, R78): a reserved bit raises RESERVED (cause 2), and otherwise
the step is the command's own rule on the fields of its format, the word having been taken off the host's list. -/
def RunsAs (opc : BitVec 8) (mask : Word) (command : Word → Instr) : Prop :=
  ∀ (s : State) (w : Word) (rest : List HostEvent), s.inputs = .command w :: rest → w.extractLsb' 24 8 = opc →
    (w &&& mask ≠ 0 → step s = .next (afterError 2 { s with inputs := rest })) ∧
    (w &&& mask = 0 → step s = exec (command w) { s with inputs := rest })

/-- R75's opcodes, each with R73's mask of its format. -/
def reservedMasks : List (BitVec 8 × Word) :=
  [(0x00, 0x00FFFFFF), (0x01, 0x00FFFFF0), (0x02, 0x00FFF000), (0x10, 0x00FFFFFF), (0x11, 0x00FFFF00),
   (0x12, 0x00FFFF00), (0x13, 0x00FFFFFF), (0x14, 0x00FFFFFF), (0x15, 0x00FFF000), (0x16, 0x00FFFFF0)] ++
  [(0x20, 0x00FFE000), (0x21, 0x00000F00), (0x22, 0x00000FFF), (0x23, 0x00000FF0), (0x24, 0x00000FFF),
   (0x25, 0x00FFE000), (0x26, 0x00FFE000), (0x30, 0x00FFFF00), (0x31, 0x00FFFFF0), (0x3E, 0x00FFFFF0),
   (0x3F, 0x00FFFFFF)]

/-- `LUT_ENC[0..15]`, the last column of R106. -/
def forward : List Triple :=
  [0xC27, 0x981, 0xB71, 0xF47, 0xC61, 0xA61, 0x946, 0xE61] ++
  [0xD45, 0xC45, 0xB51, 0xA45, 0x951, 0xF51, 0xF45, 0xE51]

/-- CANON with `LUT_DEC`, as R108 lists it. -/
def canon : List (Triple × Nibble) :=
  [(0x946, 6), (0x951, 12), (0x981, 1), (0xA45, 11), (0xA61, 5), (0xB51, 10), (0xB71, 2), (0xC27, 0)] ++
  [(0xC45, 9), (0xC61, 4), (0xD45, 8), (0xE51, 15), (0xE61, 7), (0xF45, 14), (0xF47, 3), (0xF51, 13)]

/-- `EVID[0..15]`, as R131 lists it. -/
def evidence : List Triple :=
  [0x946, 0x951, 0x981, 0xA45, 0xA61, 0xB51, 0xB71, 0xC27] ++
  [0xC45, 0xC61, 0xD45, 0xE51, 0xE61, 0xF45, 0xF47, 0xF51]

/-- `IDX_OF_N[0..15]`, as R133 lists it. -/
def indexOfNibble : List Nibble := [7, 2, 6, 14, 9, 4, 0, 12] ++ [10, 8, 5, 3, 1, 15, 13, 11]

/-- `N_OF_IDX[0..15]`, the last column of R131. -/
def nibbleOfIndex : List Nibble := [6, 12, 1, 11, 5, 10, 2, 0] ++ [9, 4, 8, 15, 7, 14, 3, 13]

/-- `slot` is what `probe()` of R135 makes of `cand`: tuple by tuple in the fixed order, the first slot at or after
the candidate (wrapping at 16) that no earlier tuple has, `d` moves away, at most `i` for tuple `i`. -/
def Probed (cand slot : Nibbles16) : Prop :=
  ∀ i : Nibble, ∃ d : Nat, d ≤ i.toNat ∧
    entry slot i = entry cand i + BitVec.ofNat 4 d ∧
    (∀ j, j < i → entry slot j ≠ entry slot i) ∧
    ∀ e, e < d → ∃ j, j < i ∧ entry slot j = entry cand i + BitVec.ofNat 4 e

/-- The key (R30): KEYBUF's entries below `KEYLEN`, in order. -/
def keyBytes (s : State) : List Byte := (List.range s.keylen.toNat).map s.keyEntry

/-- The fragment R185 stores at position `j`. -/
def storedFragment (s : State) (j : Nat) : Fragment :=
  if j % 2 = 0 then (s.codeEntry (j / 2)).extractLsb' 2 2 else (s.codeEntry (j / 2)).extractLsb' 0 2 ^^^ 0b11

/-- The response a command adds has this status (bits 31:30 of R80). -/
def Answers (s t : State) (st : BitVec 2) : Prop := ∃ r, t.responses = r :: s.responses ∧ r.extractLsb' 30 2 = st

/-- The RESULT field of the newest response (bits 15:0 of R80). -/
def lastResult (t : State) : BitVec 16 := (t.responses.headD 0).extractLsb' 0 16

end Sys2Proof.Statements

open Sys2Proof.Statements

/-! ## Encoding -/

/-- R79: the spec's encoding examples, word by word, in both directions. -/
def Obligations.SpecExampleWordsDecodeAndEncode : Prop :=
  ∀ p ∈ ([(0x01000005, .ncEnc 5), (0x02000A61, .ncDec 0xA61), (0x11000020, .keyPut 0x20), (0x1200003F, .kpSetc 3 15),
      (0x20000006, .rowLen 6), (0x2100A0A7, .rowWr 10 0xA7), (0x2200A000, .rowRd 10), (0x2300200B, .codeWr 2 0xB),
      (0x25000003, .ppEmbed 3), (0x26001000, .ppExtract 4096), (0x3000005C, .xfEnc 0x5C), (0x3E000002, .regRd 2),
      (0x3F000000, .statClr)] : List (Word × Instr)),
    decode p.1 = .ok p.2 ∧ encode p.2 = p.1

/-- Decoding the word of a command gives the command back, and every command is well formed. -/
def Obligations.DecodeOfEncodeIsTheCommand : Prop :=
  ∀ i : Instr, i.wellFormed = true ∧ decode (encode i) = .ok i

/-- A word that decodes is the word of the command it decodes to: no two words are one command. -/
def Obligations.EncodeOfDecodeIsTheWord : Prop :=
  ∀ (w : Word) (i : Instr), decode w = .ok i → encode i = w

/-- The assembler of R83 accepts the line of every command, and gives the command back. -/
def Obligations.AssemblingTheLineOfACommandGivesIt : Prop :=
  ∀ (l : AsmLine) (i : Instr), assemble l = .ok i ↔ l = i.toAsm

/-- R76: the 235 unallocated opcodes raise ILLEGAL_OPCODE, whatever the operand area holds. -/
def Obligations.UnallocatedOpcodesRaiseIllegalOpcode : Prop :=
  ∀ (s : State) (w : Word) (rest : List HostEvent), s.inputs = .command w :: rest →
    (let op := (w.extractLsb' 24 8).toNat
     (0x03 ≤ op ∧ op ≤ 0x0F) ∨ (0x17 ≤ op ∧ op ≤ 0x1F) ∨ (0x27 ≤ op ∧ op ≤ 0x2F) ∨ (0x32 ≤ op ∧ op ≤ 0x3D) ∨
       0x40 ≤ op) →
    step s = .next (afterError 1 { s with inputs := rest })

/-- R73, R78: after the opcode the reserved bits of its format are checked, before the command's own rule runs. -/
def Obligations.ReservedBitsAreCheckedAfterTheOpcode : Prop :=
  ∀ (s : State) (w : Word) (rest : List HostEvent), s.inputs = .command w :: rest →
    ((∀ row ∈ reservedMasks, row.1 ≠ w.extractLsb' 24 8) → step s = .next (afterError 1 { s with inputs := rest })) ∧
    ∀ row ∈ reservedMasks, row.1 = w.extractLsb' 24 8 →
      (w &&& row.2 ≠ 0 → step s = .next (afterError 2 { s with inputs := rest })) ∧
      (w &&& row.2 = 0 → ∃ i, decode w = .ok i ∧ step s = exec i { s with inputs := rest })

/-! ## The step -/

/-- A step on a word that decodes runs the decoded command, the word having been taken off the host's list; the
host idle, nothing changes; and `withFetchWord` makes the next step run the word's command. The host's list and the
idle step are the model's (log 1, 14). -/
def Obligations.StepRunsTheDecodedCommand : Prop :=
  (∀ (s : State) (w : Word) (rest : List HostEvent) (i : Instr), s.inputs = .command w :: rest → decode w = .ok i →
    step s = exec i { s with inputs := rest }) ∧
  (∀ s : State, s.inputs = [] → step s = .next s) ∧
  ∀ (s : State) (nbits w : Nat) (i : Instr), decodeTableWord nbits w = some i →
    step (s.withFetchWord nbits w) = exec i s

/-- R35: the state after reset. An unspecified buffer entry is one that holds no value yet and reads as the
free value of its content: the model's choice (log 5). -/
def Obligations.ResetLeavesTheSpecifiedState : Prop :=
  let s := State.reset
  s.err = false ∧ s.ptValid = false ∧ s.cause = 0 ∧ s.degcnt = 0 ∧ s.keylen = 0 ∧ s.rowlen = 0 ∧
  (∀ i, entry s.slot i = 0 ∧ entry s.cand i = 0) ∧
  ∀ a, s.rowbuf.read a = none ∧ s.codebuf.read a = none ∧ s.keybuf.read a = none ∧
    s.rowEntry a = Config.rowContent s.epoch a ∧ s.codeEntry a = Config.codeContent s.epoch a ∧
    s.keyEntry a = Config.keyContent s.epoch a

/-- R271: a reset of a running block, from every state. The sizes and what the host has and has yet to do are not
the block's state and stay (log 1, 2, 3); the unspecified contents are those of a new epoch (the model's choice,
log 5 and 6). -/
def Obligations.ResetOfARunningBlock : Prop :=
  ∀ (s : State) (rest : List HostEvent), s.inputs = .reset :: rest →
    step s = .next
      { err := false, ptValid := false, cause := 0, degcnt := 0, keylen := 0, rowlen := 0
        slot := Vector.replicate 16 0, cand := Vector.replicate 16 0
        rowbuf := [], codebuf := [], keybuf := []
        params := s.params, epoch := s.epoch + 1, inputs := rest, responses := s.responses }

/-- A reset while a command is in progress (U4): the reset state, either with no response or with the one response
the command gives when it runs alone. That the performed command's response is produced is the model's reading
(log 7), and which of the two happens is a free value. -/
def Obligations.ResetDuringACommandHasOneOfTwoOutcomes : Prop :=
  ∀ (s : State) (w : Word) (rest : List HostEvent), BlockInv s → s.inputs = .resetDuring w :: rest →
    ∃ t u, step s = .next t ∧ step { s with inputs := .command w :: rest } = .next u ∧
      (t.responses = s.responses ∨ t.responses = u.responses) ∧
      t = { State.reset with params := s.params, epoch := s.epoch + 1, inputs := rest, responses := t.responses }

/-- A command issued before the previous response, which R280 forbids, is refused by name (U3; log 8). -/
def Obligations.OverlappingCommandIsRefused : Prop :=
  ∀ (s : State) (w : Word) (rest : List HostEvent), s.inputs = .overlapping w :: rest →
    step s = .refused .overlappingCommand

/-! ## The invariant -/

/-- The invariant holds at reset (R35 against the ranges of R22, and R28 with `PT_VALID` = 0). -/
def Obligations.InvariantHoldsAtReset : Prop := BlockInv State.reset

/-- Every step keeps the invariant. -/
def Obligations.EveryStepKeepsTheInvariant : Prop :=
  ∀ s t : State, BlockInv s → step s = .next t → BlockInv t

/-- No host that keeps R280 can stop the block: every run of every length goes on, idling when the host has nothing
more to do (the model's, log 14). -/
def Obligations.NoRunOfACarefulHostStops : Prop :=
  ∀ (s : State) (k : Nat), BlockInv s → KeepsHandshake s → Safe k s

/-- Every command word, legal or not, produces exactly one response word, of the form R80 and U10 allow, and an
ERROR response carries the cause latched in `CAUSE`. -/
def Obligations.EveryCommandProducesOneLegalResponse : Prop :=
  ∀ (s : State) (w : Word) (rest : List HostEvent), BlockInv s → s.inputs = .command w :: rest →
    ∃ (t : State) (r : Word), step s = .next t ∧ t.responses = r :: s.responses ∧ t.inputs = rest ∧
      r.extractLsb' 20 10 = 0 ∧ r.extractLsb' 30 2 ≠ 0b11 ∧
      (r.extractLsb' 30 2 ≠ 0b10 → r.extractLsb' 16 4 = 0) ∧
      (r.extractLsb' 30 2 = 0b01 → r.extractLsb' 0 16 = 0) ∧
      (r.extractLsb' 30 2 = 0b10 → r.extractLsb' 0 16 = 0 ∧ t.cause = r.extractLsb' 16 4 ∧
        1 ≤ (r.extractLsb' 16 4).toNat ∧ (r.extractLsb' 16 4).toNat ≤ 5)

/-! ## NC -/

/-- R110: NC.ENC. -/
def Obligations.NcEncAnswersTheForwardTable : Prop :=
  RunsAs 0x01 0x00FFFFF0 (fun w => .ncEnc (w.extractLsb' 0 4)) ∧
  ∀ (v : Nibble) (s : State), exec (.ncEnc v) s = .next (afterOk ((forward.getD v.toNat 0).setWidth 16) s)

/-- R112: NC.DEC, on canonical triples and on all others. -/
def Obligations.NcDecInvertsTheTableOrDegrades : Prop :=
  RunsAs 0x02 0x00FFF000 (fun w => .ncDec (w.extractLsb' 0 12)) ∧
  (∀ p ∈ canon, ∀ s : State, exec (.ncDec p.1) s = .next (afterOk (p.2.setWidth 16) s)) ∧
  ∀ (t : Triple) (s : State), (∀ p ∈ canon, p.1 ≠ t) → exec (.ncDec t) s = .next (afterDegraded s)

/-- R109: NC.ENC gives three 4-bit codes, and NC.DEC of them gives the nibble back with status OK. -/
def Obligations.NcDecOfNcEncGivesTheNibbleBack : Prop :=
  ∀ (n : Nibble) (s : State), ∃ t, exec (.ncEnc n) s = .next t ∧ Answers s t 0b00 ∧
    (lastResult t).extractLsb' 12 4 = 0 ∧
    exec (.ncDec ((lastResult t).extractLsb' 0 12)) t = .next (afterOk (n.setWidth 16) t)

/-- R111: the codes NC.ENC gives. -/
def Obligations.NcEncGivesCanonicalCodes : Prop :=
  ∀ (n : Nibble) (s t : State), exec (.ncEnc n) s = .next t →
    ∃ c0 c1 c2 : Nibble, lastResult t = (c0 ++ c1 ++ c2).setWidth 16 ∧ (∃ k, (c0 ++ c1 ++ c2, k) ∈ canon) ∧
      c0 ∈ ([0x9, 0xA, 0xB, 0xC, 0xD, 0xE, 0xF] : List Nibble) ∧ c1 ∈ ([2, 4, 5, 6, 7, 8] : List Nibble) ∧
      c2 ∈ ([1, 5, 6, 7] : List Nibble)

/-- The source's algorithm (R101 with the naming of R104) gives the table of R106, and its decode chain (R107) gives
each nibble back from its canonical triple. The naming is general knowledge, its evaluation the model's (log 15). -/
def Obligations.SourceAlgorithmGivesTheTable : Prop :=
  ∀ n : Nibble, NoteNaming.encodeNibble n = forward.getD n.toNat 0 ∧
    NoteNaming.decodeTriple (forward.getD n.toNat 0) = some n

/-- R131, R133: the model's constant tables are the ones listed; `EVID` ascends; the two index tables are inverse. -/
def Obligations.ConstantTablesAreTheListedOnes : Prop :=
  (∀ i : Nibble, evid i = evidence.getD i.toNat 0 ∧ nOfIdx i = nibbleOfIndex.getD i.toNat 0 ∧
    idxOfN i = indexOfNibble.getD i.toNat 0 ∧ lutEnc i = forward.getD i.toNat 0) ∧
  (∀ i j : Nibble, i < j → evid i < evid j) ∧
  ∀ n : Nibble, evid (idxOfN n) = lutEnc n ∧ nOfIdx (idxOfN n) = n ∧ idxOfN (nOfIdx n) = n

/-! ## KP -/

/-- R140: KEY.CLR. -/
def Obligations.KeyClrEmptiesTheKey : Prop :=
  RunsAs 0x10 0x00FFFFFF (fun _ => .keyClr) ∧
  ∀ s : State, exec .keyClr s = .next { afterOk 0 s with keylen := 0, ptValid := false }

/-- R141: KEY.PUT. -/
def Obligations.KeyPutAppendsAByte : Prop :=
  RunsAs 0x11 0x00FFFF00 (fun w => .keyPut (w.extractLsb' 0 8)) ∧
  ∀ (v : Byte) (s : State),
    (s.keylen.toNat = s.params.keyMax → exec (.keyPut v) s = .next (afterError 4 s)) ∧
    (s.keylen.toNat < s.params.keyMax → s.params.keyMax ≤ 65535 →
      ∃ t, exec (.keyPut v) s = .next t ∧
        t.keybuf.read s.keylen.toNat = some v ∧
        (∀ a, a ≠ s.keylen.toNat → t.keybuf.read a = s.keybuf.read a) ∧
        t.keylen.toNat = s.keylen.toNat + 1 ∧
        t = { afterOk 0 s with keybuf := t.keybuf, keylen := t.keylen, ptValid := false })

/-- R145: KP.SETC; the table and `PT_VALID` stay. -/
def Obligations.KpSetcWritesOneCandidate : Prop :=
  RunsAs 0x12 0x00FFFF00 (fun w => .kpSetc (w.extractLsb' 4 4) (w.extractLsb' 0 4)) ∧
  ∀ (idx sv : Nibble) (s : State), ∃ t, exec (.kpSetc idx sv) s = .next t ∧
    entry t.cand idx = sv ∧ (∀ j, j ≠ idx → entry t.cand j = entry s.cand j) ∧
    t = { afterOk 0 s with cand := t.cand }

/-- R134, R150: KP.BUILD, whatever `HASH256` and `RENDER` are. -/
def Obligations.KpBuildHashesTheKeyAndProbes : Prop :=
  RunsAs 0x13 0x00FFFFFF (fun _ => .kpBuild) ∧
  ∀ s : State, s.keylen.toNat ≤ s.params.keyMax → ∃ t, exec .kpBuild s = .next t ∧
    (∀ i : Nibble, entry t.cand i =
      (Config.hash256 (keyBytes s ++ Config.render (evidence.getD i.toNat 0))).extractLsb' 0 4) ∧
    Probed t.cand t.slot ∧
    t = { afterOk 0 s with cand := t.cand, slot := t.slot, ptValid := true }

/-- R135, R152: KP.PROBE. -/
def Obligations.KpProbeAssignsFirstFreeSlots : Prop :=
  RunsAs 0x14 0x00FFFFFF (fun _ => .kpProbe) ∧
  ∀ s : State, ∃ t, exec .kpProbe s = .next t ∧ Probed s.cand t.slot ∧
    t = { afterOk 0 s with slot := t.slot, ptValid := true }

/-- R136: every table KP.PROBE and KP.BUILD write is a bijection. -/
def Obligations.EveryBuiltTableIsABijection : Prop :=
  ∀ s : State, (∃ t, exec .kpProbe s = .next t ∧ t.ptValid = true ∧ Bijective t.slot) ∧
    (s.keylen.toNat ≤ s.params.keyMax → ∃ t, exec .kpBuild s = .next t ∧ t.ptValid = true ∧ Bijective t.slot)

/-- The corner cases of R152: equal candidates `c` give `SLOT[i] = (c + i) mod 16`; a permutation is kept. -/
def Obligations.ProbingEqualOrDistinctCandidates : Prop :=
  ∀ s : State, ∃ t, exec .kpProbe s = .next t ∧
    (∀ c, (∀ i, entry s.cand i = c) → ∀ i, entry t.slot i = c + i) ∧
    ((∀ i j, entry s.cand i = entry s.cand j → i = j) → ∀ i, entry t.slot i = entry s.cand i)

/-- R155: KP.FWD. -/
def Obligations.KpFwdLooksUpTheSlot : Prop :=
  RunsAs 0x15 0x00FFF000 (fun w => .kpFwd (w.extractLsb' 0 12)) ∧
  ∀ s : State,
    (s.ptValid = false → ∀ t, exec (.kpFwd t) s = .next (afterError 5 s)) ∧
    (s.ptValid = true →
      (∀ i : Nibble, exec (.kpFwd (evidence.getD i.toNat 0)) s = .next (afterOk ((entry s.slot i).setWidth 16) s)) ∧
      ∀ t, t ∉ evidence → exec (.kpFwd t) s = .next (afterDegraded s))

/-- R157: KP.INV, with its fallback as written. -/
def Obligations.KpInvLooksUpTheTuple : Prop :=
  RunsAs 0x16 0x00FFFFF0 (fun w => .kpInv (w.extractLsb' 0 4)) ∧
  ∀ (v : Nibble) (s : State),
    (s.ptValid = false → exec (.kpInv v) s = .next (afterError 5 s)) ∧
    (s.ptValid = true →
      ((∃ i, entry s.slot i = v) → ∃ i, entry s.slot i = v ∧
        exec (.kpInv v) s = .next (afterOk ((evidence.getD i.toNat 0).setWidth 16) s)) ∧
      ((∀ i, entry s.slot i ≠ v) → exec (.kpInv v) s = .next (afterDegraded s)))

/-- R158: in a state that meets the invariant, KP.INV finds its tuple whenever there is a table. -/
def Obligations.KpInvNeverDegrades : Prop :=
  ∀ (v : Nibble) (s : State), BlockInv s → s.ptValid = true →
    ∃ i, entry s.slot i = v ∧ exec (.kpInv v) s = .next (afterOk ((evid i).setWidth 16) s)

/-- R159: KP.FWD and KP.INV are mutually inverse, both with status OK; the second runs on any state with the same
table. -/
def Obligations.KpFwdAndKpInvAreInverse : Prop :=
  ∀ s u : State, BlockInv s → s.ptValid = true → u.ptValid = true → u.slot = s.slot →
    (∀ i : Nibble, ∃ t, exec (.kpFwd (evid i)) s = .next t ∧ Answers s t 0b00 ∧
      exec (.kpInv ((lastResult t).extractLsb' 0 4)) u = .next (afterOk ((evid i).setWidth 16) u)) ∧
    ∀ c : Nibble, ∃ t, exec (.kpInv c) s = .next t ∧ Answers s t 0b00 ∧
      exec (.kpFwd ((lastResult t).extractLsb' 0 12)) u = .next (afterOk (c.setWidth 16) u)

/-- R160: the table is used only once built, and the commands and the reset that change `PT_VALID`. -/
def Obligations.TheTableIsUsedOnlyOnceBuilt : Prop :=
  (∀ s : State, s.ptValid = false → ∀ (t : Triple) (v : Nibble) (b : Byte),
    exec (.kpFwd t) s = .next (afterError 5 s) ∧ exec (.kpInv v) s = .next (afterError 5 s) ∧
    exec (.xfEnc b) s = .next (afterError 5 s) ∧ exec (.xfDec v) s = .next (afterError 5 s)) ∧
  (∀ (i : Instr) (s t : State), exec i s = .next t →
    (s.ptValid = false → t.ptValid = true → i = .kpBuild ∨ i = .kpProbe) ∧
    (s.ptValid = true → t.ptValid = false → i = .keyClr ∨ ∃ v, i = .keyPut v)) ∧
  State.reset.ptValid = false ∧ ∀ s : State, s.acceptReset.ptValid = false

/-! ## PP -/

/-- R175: ROW.LEN. -/
def Obligations.RowLenSetsTheRowLength : Prop :=
  RunsAs 0x20 0x00FFE000 (fun w => .rowLen (w.extractLsb' 0 13)) ∧
  ∀ (count : BitVec 13) (s : State),
    (s.params.rowMax < count.toNat → exec (.rowLen count) s = .next (afterError 3 s)) ∧
    (count.toNat ≤ s.params.rowMax → exec (.rowLen count) s = .next { afterOk 0 s with rowlen := count })

/-- R176: ROW.WR writes one entry of ROWBUF and nothing else. -/
def Obligations.RowWrWritesOneSample : Prop :=
  RunsAs 0x21 0x00000F00 (fun w => .rowWr (w.extractLsb' 12 12) (w.extractLsb' 0 8)) ∧
  ∀ (addr : BitVec 12) (d : Byte) (s : State),
    (s.params.rowMax ≤ addr.toNat → exec (.rowWr addr d) s = .next (afterError 3 s)) ∧
    (addr.toNat < s.params.rowMax → ∃ t, exec (.rowWr addr d) s = .next t ∧
      t.rowbuf.read addr.toNat = some d ∧ (∀ a, a ≠ addr.toNat → t.rowbuf.read a = s.rowbuf.read a) ∧
      t = { afterOk 0 s with rowbuf := t.rowbuf })

/-- R177: ROW.RD. An entry written since reset gives the value it holds; one never written gives the free value of
its content, which nothing constrains: the model's choice (log 5). -/
def Obligations.RowRdReadsOneSample : Prop :=
  RunsAs 0x22 0x00000FFF (fun w => .rowRd (w.extractLsb' 12 12)) ∧
  ∀ (addr : BitVec 12) (s : State),
    (s.params.rowMax ≤ addr.toNat → exec (.rowRd addr) s = .next (afterError 3 s)) ∧
    (addr.toNat < s.params.rowMax →
      (∀ b, s.rowbuf.read addr.toNat = some b → exec (.rowRd addr) s = .next (afterOk (b.setWidth 16) s)) ∧
      (s.rowbuf.read addr.toNat = none →
        exec (.rowRd addr) s = .next (afterOk ((Config.rowContent s.epoch addr.toNat).setWidth 16) s)))

/-- R178: CODE.WR writes one entry of CODEBUF and nothing else. -/
def Obligations.CodeWrWritesOneCode : Prop :=
  RunsAs 0x23 0x00000FF0 (fun w => .codeWr (w.extractLsb' 12 12) (w.extractLsb' 0 4)) ∧
  ∀ (addr : BitVec 12) (d : Nibble) (s : State),
    (s.params.codeMax ≤ addr.toNat → exec (.codeWr addr d) s = .next (afterError 3 s)) ∧
    (addr.toNat < s.params.codeMax → ∃ t, exec (.codeWr addr d) s = .next t ∧
      t.codebuf.read addr.toNat = some d ∧ (∀ a, a ≠ addr.toNat → t.codebuf.read a = s.codebuf.read a) ∧
      t = { afterOk 0 s with codebuf := t.codebuf })

/-- R179: CODE.RD. An entry never written since reset gives the free value of its content: the model's choice
(log 5). -/
def Obligations.CodeRdReadsOneCode : Prop :=
  RunsAs 0x24 0x00000FFF (fun w => .codeRd (w.extractLsb' 12 12)) ∧
  ∀ (addr : BitVec 12) (s : State),
    (s.params.codeMax ≤ addr.toNat → exec (.codeRd addr) s = .next (afterError 3 s)) ∧
    (addr.toNat < s.params.codeMax →
      (∀ b, s.codebuf.read addr.toNat = some b → exec (.codeRd addr) s = .next (afterOk (b.setWidth 16) s)) ∧
      (s.codebuf.read addr.toNat = none →
        exec (.codeRd addr) s = .next (afterOk ((Config.codeContent s.epoch addr.toNat).setWidth 16) s)))

/-- R185: PP.EMBED, with every entry of ROWBUF it writes and every one it leaves. An entry never written counts as
the unspecified content of its reset, a free value: the model's choice (log 5). -/
def Obligations.PpEmbedStoresTheFragments : Prop :=
  RunsAs 0x25 0x00FFE000 (fun w => .ppEmbed (w.extractLsb' 0 13)) ∧
  ∀ (count : BitVec 13) (s : State),
    (s.params.codeMax < count.toNat → exec (.ppEmbed count) s = .next (afterError 3 s)) ∧
    (count.toNat ≤ s.params.codeMax → s.rowlen.toNat ≤ s.params.rowMax →
      ∃ t, exec (.ppEmbed count) s = .next t ∧
        (∀ j, j < min (2 * count.toNat) s.rowlen.toNat →
          t.rowbuf.read j = some ((s.rowEntry j &&& 0xFC) ||| (storedFragment s j).setWidth 8)) ∧
        (∀ j, min (2 * count.toNat) s.rowlen.toNat ≤ j → t.rowbuf.read j = s.rowbuf.read j) ∧
        t = { afterOk (BitVec.ofNat 16 (min (2 * count.toNat) s.rowlen.toNat)) s with rowbuf := t.rowbuf })

/-- R186: PP.EMBED keeps bits 7:2 of every ROWBUF entry, and all bits from entry `L` on. -/
def Obligations.PpEmbedKeepsTheUpperSixBits : Prop :=
  ∀ (count : BitVec 13) (s t : State), exec (.ppEmbed count) s = .next t → ∀ j : Nat,
    (t.rowEntry j).extractLsb' 2 6 = (s.rowEntry j).extractLsb' 2 6 ∧
    (min (2 * count.toNat) s.rowlen.toNat ≤ j → t.rowEntry j = s.rowEntry j)

/-- R190: PP.EXTRACT, with every entry of CODEBUF it writes and every one it leaves. A sample never written counts as
the unspecified content of its reset, a free value: the model's choice (log 5). -/
def Obligations.PpExtractRecombinesTheFragments : Prop :=
  RunsAs 0x26 0x00FFE000 (fun w => .ppExtract (w.extractLsb' 0 13)) ∧
  ∀ (count : BitVec 13) (s : State),
    (s.params.codeMax < count.toNat → exec (.ppExtract count) s = .next (afterError 3 s)) ∧
    (count.toNat ≤ s.params.codeMax → s.rowlen.toNat ≤ s.params.rowMax →
      ∃ t, exec (.ppExtract count) s = .next t ∧
        (∀ k, k < min count.toNat (s.rowlen.toNat / 2) → t.codebuf.read k =
          some ((s.rowEntry (2 * k)).extractLsb' 0 2 ++ ((s.rowEntry (2 * k + 1)).extractLsb' 0 2 ^^^ 0b11))) ∧
        (∀ k, min count.toNat (s.rowlen.toNat / 2) ≤ k → t.codebuf.read k = s.codebuf.read k) ∧
        t = { afterOk (BitVec.ofNat 16 (min count.toNat (s.rowlen.toNat / 2))) s with codebuf := t.codebuf })

/-- R191: extracting what was embedded gives the codes back, whatever ran between that left ROWBUF and the row
length alone. That it holds over entries never written too, which count as free values, is the model's choice
(log 5). -/
def Obligations.ExtractAfterEmbedGivesTheCodesBack : Prop :=
  ∀ (count : BitVec 13) (s : State), count.toNat ≤ s.params.codeMax → s.rowlen.toNat ≤ s.params.rowMax →
    ∃ t, exec (.ppEmbed count) s = .next t ∧
      ∀ u : State, u.rowbuf = t.rowbuf → u.rowlen = s.rowlen → u.params = s.params → u.epoch = s.epoch →
        ∃ v, exec (.ppExtract count) u = .next v ∧
          ∀ k, k < min count.toNat (s.rowlen.toNat / 2) → v.codeEntry k = s.codeEntry k

/-- R193: embedding into a row of one sample. An entry never written counts as a free value: the model's choice
(log 5). -/
def Obligations.EmbeddingIntoOneSample : Prop :=
  ∀ (count : BitVec 13) (s : State), s.rowlen = 1 → 1 ≤ count.toNat → count.toNat ≤ s.params.codeMax →
    1 ≤ s.params.rowMax → ∃ t, exec (.ppEmbed count) s = .next t ∧ lastResult t = 1 ∧
      t.rowEntry 0 = (s.rowEntry 0 &&& 0xFC) ||| ((s.codeEntry 0).extractLsb' 2 2).setWidth 8 ∧
      ∀ a, a ≠ 0 → t.rowbuf.read a = s.rowbuf.read a

/-! ## XF -/

/-- R210: XF.ENC. -/
def Obligations.XfEncMapsTheTopNibble : Prop :=
  RunsAs 0x30 0x00FFFF00 (fun w => .xfEnc (w.extractLsb' 0 8)) ∧
  ∀ (v : Byte) (s : State),
    (s.ptValid = false → exec (.xfEnc v) s = .next (afterError 5 s)) ∧
    (s.ptValid = true → exec (.xfEnc v) s =
      .next (afterOk ((entry s.slot (indexOfNibble.getD (v.extractLsb' 4 4).toNat 0)).setWidth 16) s))

/-- R212: XF.DEC, over a table that is a bijection, as R28 says it is whenever `PT_VALID` = 1. -/
def Obligations.XfDecRebuildsTheSample : Prop :=
  RunsAs 0x31 0x00FFFFF0 (fun w => .xfDec (w.extractLsb' 0 4)) ∧
  ∀ (v : Nibble) (s : State),
    (s.ptValid = false → exec (.xfDec v) s = .next (afterError 5 s)) ∧
    (s.ptValid = true → Bijective s.slot → ∃ i, entry s.slot i = v ∧
      exec (.xfDec v) s = .next (afterOk ((nibbleOfIndex.getD i.toNat 0 ++ 0#4).setWidth 16) s))

/-- R211: XF.ENC is KP.FWD of NC.ENC of the top nibble, and is never DEGRADED. -/
def Obligations.XfEncIsNcEncThenKpFwd : Prop :=
  ∀ (v : Byte) (s : State), s.ptValid = true → ∃ t u,
    exec (.ncEnc (v.extractLsb' 4 4)) s = .next t ∧
    exec (.kpFwd ((lastResult t).extractLsb' 0 12)) t = .next u ∧ Answers t u 0b00 ∧
    exec (.xfEnc v) s = .next (afterOk (lastResult u) s)

/-- R213: XF.DEC is NC.DEC of KP.INV, shifted left by 4, and is never DEGRADED. -/
def Obligations.XfDecIsKpInvThenNcDec : Prop :=
  ∀ (c : Nibble) (s : State), BlockInv s → s.ptValid = true → ∃ t u,
    exec (.kpInv c) s = .next t ∧ Answers s t 0b00 ∧
    exec (.ncDec ((lastResult t).extractLsb' 0 12)) t = .next u ∧ Answers t u 0b00 ∧
    exec (.xfDec c) s = .next (afterOk (lastResult u <<< 4) s)

/-- R214: the per-sample round trip, on one block or across two that hold the same table. -/
def Obligations.XfDecOfXfEncKeepsTheTopNibble : Prop :=
  ∀ (x : Byte) (s u : State), BlockInv s → s.ptValid = true → u.ptValid = true → u.slot = s.slot →
    ∃ t, exec (.xfEnc x) s = .next t ∧ Answers s t 0b00 ∧
      exec (.xfDec ((lastResult t).extractLsb' 0 4)) u = .next (afterOk ((x &&& 0xF0).setWidth 16) u)

/-! ## Control -/

/-- R220: NOP. -/
def Obligations.NopOnlyAnswers : Prop :=
  RunsAs 0x00 0x00FFFFFF (fun _ => .nop) ∧
  ∀ s : State, exec .nop s = .next (afterOk 0 s)

/-- R222: REG.RD, view by view. -/
def Obligations.RegRdGivesTheRegisterViews : Prop :=
  RunsAs 0x3E 0x00FFFFF0 (fun w => .regRd (w.extractLsb' 0 4)) ∧
  ∀ s : State,
    (∀ v : Nibble, 12 < v.toNat → exec (.regRd v) s = .next (afterError 3 s)) ∧
    (let four (r : Nibbles16) (k : Nibble) : BitVec 16 :=
       entry r (k + 3) ++ entry r (k + 2) ++ entry r (k + 1) ++ entry r k
     let views : List (BitVec 16) :=
       [0#14 ++ BitVec.ofBool s.ptValid ++ BitVec.ofBool s.err, s.cause.setWidth 16, s.degcnt, s.keylen,
        s.rowlen.setWidth 16, four s.slot 0, four s.slot 4, four s.slot 8, four s.slot 12,
        four s.cand 0, four s.cand 4, four s.cand 8, four s.cand 12]
     ∀ (v : Nibble) (x : BitVec 16), views[v.toNat]? = some x → exec (.regRd v) s = .next (afterOk x s))

/-- R224: STAT.CLR. -/
def Obligations.StatClrClearsTheStatus : Prop :=
  RunsAs 0x3F 0x00FFFFFF (fun _ => .statClr) ∧
  ∀ s : State, exec .statClr s = .next { afterOk 0 s with err := false, cause := 0, degcnt := 0 }

/-! ## Rules about every command -/

/-- R243: an error changes no state but `ERR` and `CAUSE`, and its response is `{0b10, 0, cause, 0x0000}`. -/
def Obligations.AnErrorChangesOnlyErrAndCause : Prop :=
  ∀ (s t : State) (w : Word) (rest : List HostEvent), s.inputs = .command w :: rest → step s = .next t →
    Answers s t 0b10 → ∃ cause : BitVec 4, 1 ≤ cause.toNat ∧ cause.toNat ≤ 5 ∧
      t = afterError cause { s with inputs := rest }

/-- R244, R25: a DEGRADED response counts in `DEGCNT`, changes nothing else, and comes only from NC.DEC, KP.FWD and
KP.INV; otherwise only STAT.CLR and reset change `DEGCNT`, to 0. -/
def Obligations.DegradedResultsAreCounted : Prop :=
  (∀ (s t : State) (w : Word) (rest : List HostEvent), s.inputs = .command w :: rest → step s = .next t →
    (Answers s t 0b01 → t = afterDegraded { s with inputs := rest } ∧
      w.extractLsb' 24 8 ∈ ([0x02, 0x15, 0x16] : List (BitVec 8))) ∧
    (¬ Answers s t 0b01 → t.degcnt = if w = 0x3F000000 then 0 else s.degcnt)) ∧
  ∀ s : State, s.acceptReset.degcnt = 0

/-- R23, R24, R251: `ERR` is sticky and `CAUSE` is the latest cause; a command that raises sets both, whatever they
were; only STAT.CLR and reset clear them. -/
def Obligations.ErrIsStickyAndCauseIsTheLatest : Prop :=
  (∀ (s t : State) (w : Word) (rest : List HostEvent), s.inputs = .command w :: rest → step s = .next t →
    (Answers s t 0b10 → t.err = true ∧ t.cause = (t.responses.headD 0).extractLsb' 16 4 ∧ t.cause ≠ 0) ∧
    (¬ Answers s t 0b10 → w ≠ 0x3F000000 → t.err = s.err ∧ t.cause = s.cause) ∧
    (w = 0x3F000000 → t.err = false ∧ t.cause = 0)) ∧
  ∀ s : State, s.acceptReset.err = false ∧ s.acceptReset.cause = 0

/-- R241: the commands every operand of which is legal raise nothing but RESERVED. -/
def Obligations.EightCommandsRaiseNothingButReserved : Prop :=
  ∀ (s t : State) (w : Word) (rest : List HostEvent), s.inputs = .command w :: rest →
    w.extractLsb' 24 8 ∈ ([0x00, 0x01, 0x02, 0x10, 0x12, 0x13, 0x14, 0x3F] : List (BitVec 8)) →
    step s = .next t → Answers s t 0b10 → t = afterError 2 { s with inputs := rest }

/-- The Writers column of R22 for the registers that are not status registers, and of R50 for the buffers: whatever
else a command does, it leaves the rest alone. -/
def Obligations.OnlyTheListedWritersWrite : Prop :=
  ∀ (i : Instr) (s t : State), exec i s = .next t →
    (t.keylen ≠ s.keylen → i = .keyClr ∨ ∃ v, i = .keyPut v) ∧
    (t.rowlen ≠ s.rowlen → ∃ c, i = .rowLen c) ∧
    (t.slot ≠ s.slot → i = .kpBuild ∨ i = .kpProbe) ∧
    (t.cand ≠ s.cand → i = .kpBuild ∨ ∃ a b, i = .kpSetc a b) ∧
    (t.rowbuf ≠ s.rowbuf → (∃ a d, i = .rowWr a d) ∨ ∃ c, i = .ppEmbed c) ∧
    (t.codebuf ≠ s.codebuf → (∃ a d, i = .codeWr a d) ∨ ∃ c, i = .ppExtract c) ∧
    (t.keybuf ≠ s.keybuf → ∃ v, i = .keyPut v) ∧
    t.params = s.params ∧ t.epoch = s.epoch ∧ t.inputs = s.inputs

/-- No command returns a key byte (R52, R250): two blocks that differ in KEYBUF alone answer every command with the
same response. -/
def Obligations.NoCommandReturnsAKeyByte : Prop :=
  ∀ (i : Instr) (s t : State) (m : Memory Byte), exec i s = .next t →
    ∃ u, exec i { s with keybuf := m } = .next u ∧ u.responses = t.responses

/-- KP.BUILD never reads an unwritten key byte (R56): in a state that meets the invariant its candidates and table
do not depend on the free values of the buffers' contents. -/
def Obligations.KpBuildReadsOnlyWrittenBytes : Prop :=
  ∀ (s : State) (e : Nat), BlockInv s → ∃ t u, exec .kpBuild s = .next t ∧ exec .kpBuild { s with epoch := e } = .next u ∧
    u.cand = t.cand ∧ u.slot = t.slot

/-- Building with the same key gives the same table (a corner case of R150): the second KP.BUILD runs in any state
whose key is that of the first, as every state reached with no key write and no reset between is; the first KP.BUILD
leaves the key alone. -/
def Obligations.RebuildingGivesTheSameTable : Prop :=
  ∀ s u : State, s.keylen.toNat ≤ s.params.keyMax → u.keylen.toNat ≤ u.params.keyMax → keyBytes u = keyBytes s →
    ∃ t v, exec .kpBuild s = .next t ∧ keyBytes t = keyBytes s ∧ exec .kpBuild u = .next v ∧
      v.cand = t.cand ∧ v.slot = t.slot

/-- Canonical buffers that read alike are equal, for entries of every width, so that equal buffers are equal data. The
canonical form is the model's. -/
def Obligations.BuffersThatReadAlikeAreEqual : Prop :=
  ∀ (α : Type) (m n : Memory α), m.wf = true → n.wf = true → (∀ a, m.read a = n.read a) → m = n
end

