-- ==== Sys2Proof/Laws/State.lean ====
section
/-!
SUPPORT. What each field of State is after each named update: one lemma a field and update, so that no later proof
unfolds a record update.
-/

namespace Sys2Proof.Machine

variable (s : State)

@[simp] theorem State.answer_err (w : Word) : (s.answer w).err = s.err := rfl
@[simp] theorem State.answer_ptValid (w : Word) : (s.answer w).ptValid = s.ptValid := rfl
@[simp] theorem State.answer_cause (w : Word) : (s.answer w).cause = s.cause := rfl
@[simp] theorem State.answer_degcnt (w : Word) : (s.answer w).degcnt = s.degcnt := rfl
@[simp] theorem State.answer_keylen (w : Word) : (s.answer w).keylen = s.keylen := rfl
@[simp] theorem State.answer_rowlen (w : Word) : (s.answer w).rowlen = s.rowlen := rfl
@[simp] theorem State.answer_slot (w : Word) : (s.answer w).slot = s.slot := rfl
@[simp] theorem State.answer_cand (w : Word) : (s.answer w).cand = s.cand := rfl
@[simp] theorem State.answer_rowbuf (w : Word) : (s.answer w).rowbuf = s.rowbuf := rfl
@[simp] theorem State.answer_codebuf (w : Word) : (s.answer w).codebuf = s.codebuf := rfl
@[simp] theorem State.answer_keybuf (w : Word) : (s.answer w).keybuf = s.keybuf := rfl
@[simp] theorem State.answer_params (w : Word) : (s.answer w).params = s.params := rfl
@[simp] theorem State.answer_epoch (w : Word) : (s.answer w).epoch = s.epoch := rfl
@[simp] theorem State.answer_inputs (w : Word) : (s.answer w).inputs = s.inputs := rfl
@[simp] theorem State.answer_responses (w : Word) : (s.answer w).responses = w :: s.responses := rfl

@[simp] theorem State.countDegraded_err : s.countDegraded.err = s.err := rfl
@[simp] theorem State.countDegraded_ptValid : s.countDegraded.ptValid = s.ptValid := rfl
@[simp] theorem State.countDegraded_cause : s.countDegraded.cause = s.cause := rfl
@[simp] theorem State.countDegraded_degcnt : s.countDegraded.degcnt = degcntNext s.degcnt := rfl
@[simp] theorem State.countDegraded_keylen : s.countDegraded.keylen = s.keylen := rfl
@[simp] theorem State.countDegraded_rowlen : s.countDegraded.rowlen = s.rowlen := rfl
@[simp] theorem State.countDegraded_slot : s.countDegraded.slot = s.slot := rfl
@[simp] theorem State.countDegraded_cand : s.countDegraded.cand = s.cand := rfl
@[simp] theorem State.countDegraded_rowbuf : s.countDegraded.rowbuf = s.rowbuf := rfl
@[simp] theorem State.countDegraded_codebuf : s.countDegraded.codebuf = s.codebuf := rfl
@[simp] theorem State.countDegraded_keybuf : s.countDegraded.keybuf = s.keybuf := rfl
@[simp] theorem State.countDegraded_params : s.countDegraded.params = s.params := rfl
@[simp] theorem State.countDegraded_epoch : s.countDegraded.epoch = s.epoch := rfl
@[simp] theorem State.countDegraded_inputs : s.countDegraded.inputs = s.inputs := rfl
@[simp] theorem State.countDegraded_responses : s.countDegraded.responses = s.responses := rfl

@[simp] theorem State.latch_err (c : Cause) : (s.latch c).err = true := rfl
@[simp] theorem State.latch_ptValid (c : Cause) : (s.latch c).ptValid = s.ptValid := rfl
@[simp] theorem State.latch_cause (c : Cause) : (s.latch c).cause = c.code := rfl
@[simp] theorem State.latch_degcnt (c : Cause) : (s.latch c).degcnt = s.degcnt := rfl
@[simp] theorem State.latch_keylen (c : Cause) : (s.latch c).keylen = s.keylen := rfl
@[simp] theorem State.latch_rowlen (c : Cause) : (s.latch c).rowlen = s.rowlen := rfl
@[simp] theorem State.latch_slot (c : Cause) : (s.latch c).slot = s.slot := rfl
@[simp] theorem State.latch_cand (c : Cause) : (s.latch c).cand = s.cand := rfl
@[simp] theorem State.latch_rowbuf (c : Cause) : (s.latch c).rowbuf = s.rowbuf := rfl
@[simp] theorem State.latch_codebuf (c : Cause) : (s.latch c).codebuf = s.codebuf := rfl
@[simp] theorem State.latch_keybuf (c : Cause) : (s.latch c).keybuf = s.keybuf := rfl
@[simp] theorem State.latch_params (c : Cause) : (s.latch c).params = s.params := rfl
@[simp] theorem State.latch_epoch (c : Cause) : (s.latch c).epoch = s.epoch := rfl
@[simp] theorem State.latch_inputs (c : Cause) : (s.latch c).inputs = s.inputs := rfl
@[simp] theorem State.latch_responses (c : Cause) : (s.latch c).responses = s.responses := rfl

@[simp] theorem State.clearStatus_err : s.clearStatus.err = false := rfl
@[simp] theorem State.clearStatus_ptValid : s.clearStatus.ptValid = s.ptValid := rfl
@[simp] theorem State.clearStatus_cause : s.clearStatus.cause = 0 := rfl
@[simp] theorem State.clearStatus_degcnt : s.clearStatus.degcnt = 0 := rfl
@[simp] theorem State.clearStatus_keylen : s.clearStatus.keylen = s.keylen := rfl
@[simp] theorem State.clearStatus_rowlen : s.clearStatus.rowlen = s.rowlen := rfl
@[simp] theorem State.clearStatus_slot : s.clearStatus.slot = s.slot := rfl
@[simp] theorem State.clearStatus_cand : s.clearStatus.cand = s.cand := rfl
@[simp] theorem State.clearStatus_rowbuf : s.clearStatus.rowbuf = s.rowbuf := rfl
@[simp] theorem State.clearStatus_codebuf : s.clearStatus.codebuf = s.codebuf := rfl
@[simp] theorem State.clearStatus_keybuf : s.clearStatus.keybuf = s.keybuf := rfl
@[simp] theorem State.clearStatus_params : s.clearStatus.params = s.params := rfl
@[simp] theorem State.clearStatus_epoch : s.clearStatus.epoch = s.epoch := rfl
@[simp] theorem State.clearStatus_inputs : s.clearStatus.inputs = s.inputs := rfl
@[simp] theorem State.clearStatus_responses : s.clearStatus.responses = s.responses := rfl

@[simp] theorem State.writeRow_err (a : Nat) (v : Byte) : (s.writeRow a v).err = s.err := rfl
@[simp] theorem State.writeRow_ptValid (a : Nat) (v : Byte) : (s.writeRow a v).ptValid = s.ptValid := rfl
@[simp] theorem State.writeRow_cause (a : Nat) (v : Byte) : (s.writeRow a v).cause = s.cause := rfl
@[simp] theorem State.writeRow_degcnt (a : Nat) (v : Byte) : (s.writeRow a v).degcnt = s.degcnt := rfl
@[simp] theorem State.writeRow_keylen (a : Nat) (v : Byte) : (s.writeRow a v).keylen = s.keylen := rfl
@[simp] theorem State.writeRow_rowlen (a : Nat) (v : Byte) : (s.writeRow a v).rowlen = s.rowlen := rfl
@[simp] theorem State.writeRow_slot (a : Nat) (v : Byte) : (s.writeRow a v).slot = s.slot := rfl
@[simp] theorem State.writeRow_cand (a : Nat) (v : Byte) : (s.writeRow a v).cand = s.cand := rfl
@[simp] theorem State.writeRow_rowbuf (a : Nat) (v : Byte) : (s.writeRow a v).rowbuf = s.rowbuf.write a v := rfl
@[simp] theorem State.writeRow_codebuf (a : Nat) (v : Byte) : (s.writeRow a v).codebuf = s.codebuf := rfl
@[simp] theorem State.writeRow_keybuf (a : Nat) (v : Byte) : (s.writeRow a v).keybuf = s.keybuf := rfl
@[simp] theorem State.writeRow_params (a : Nat) (v : Byte) : (s.writeRow a v).params = s.params := rfl
@[simp] theorem State.writeRow_epoch (a : Nat) (v : Byte) : (s.writeRow a v).epoch = s.epoch := rfl
@[simp] theorem State.writeRow_inputs (a : Nat) (v : Byte) : (s.writeRow a v).inputs = s.inputs := rfl
@[simp] theorem State.writeRow_responses (a : Nat) (v : Byte) : (s.writeRow a v).responses = s.responses := rfl

@[simp] theorem State.writeCode_err (a : Nat) (v : Nibble) : (s.writeCode a v).err = s.err := rfl
@[simp] theorem State.writeCode_ptValid (a : Nat) (v : Nibble) : (s.writeCode a v).ptValid = s.ptValid := rfl
@[simp] theorem State.writeCode_cause (a : Nat) (v : Nibble) : (s.writeCode a v).cause = s.cause := rfl
@[simp] theorem State.writeCode_degcnt (a : Nat) (v : Nibble) : (s.writeCode a v).degcnt = s.degcnt := rfl
@[simp] theorem State.writeCode_keylen (a : Nat) (v : Nibble) : (s.writeCode a v).keylen = s.keylen := rfl
@[simp] theorem State.writeCode_rowlen (a : Nat) (v : Nibble) : (s.writeCode a v).rowlen = s.rowlen := rfl
@[simp] theorem State.writeCode_slot (a : Nat) (v : Nibble) : (s.writeCode a v).slot = s.slot := rfl
@[simp] theorem State.writeCode_cand (a : Nat) (v : Nibble) : (s.writeCode a v).cand = s.cand := rfl
@[simp] theorem State.writeCode_rowbuf (a : Nat) (v : Nibble) : (s.writeCode a v).rowbuf = s.rowbuf := rfl
@[simp] theorem State.writeCode_codebuf (a : Nat) (v : Nibble) : (s.writeCode a v).codebuf = s.codebuf.write a v := rfl
@[simp] theorem State.writeCode_keybuf (a : Nat) (v : Nibble) : (s.writeCode a v).keybuf = s.keybuf := rfl
@[simp] theorem State.writeCode_params (a : Nat) (v : Nibble) : (s.writeCode a v).params = s.params := rfl
@[simp] theorem State.writeCode_epoch (a : Nat) (v : Nibble) : (s.writeCode a v).epoch = s.epoch := rfl
@[simp] theorem State.writeCode_inputs (a : Nat) (v : Nibble) : (s.writeCode a v).inputs = s.inputs := rfl
@[simp] theorem State.writeCode_responses (a : Nat) (v : Nibble) : (s.writeCode a v).responses = s.responses := rfl

@[simp] theorem State.writeKey_err (a : Nat) (v : Byte) : (s.writeKey a v).err = s.err := rfl
@[simp] theorem State.writeKey_ptValid (a : Nat) (v : Byte) : (s.writeKey a v).ptValid = s.ptValid := rfl
@[simp] theorem State.writeKey_cause (a : Nat) (v : Byte) : (s.writeKey a v).cause = s.cause := rfl
@[simp] theorem State.writeKey_degcnt (a : Nat) (v : Byte) : (s.writeKey a v).degcnt = s.degcnt := rfl
@[simp] theorem State.writeKey_keylen (a : Nat) (v : Byte) : (s.writeKey a v).keylen = s.keylen := rfl
@[simp] theorem State.writeKey_rowlen (a : Nat) (v : Byte) : (s.writeKey a v).rowlen = s.rowlen := rfl
@[simp] theorem State.writeKey_slot (a : Nat) (v : Byte) : (s.writeKey a v).slot = s.slot := rfl
@[simp] theorem State.writeKey_cand (a : Nat) (v : Byte) : (s.writeKey a v).cand = s.cand := rfl
@[simp] theorem State.writeKey_rowbuf (a : Nat) (v : Byte) : (s.writeKey a v).rowbuf = s.rowbuf := rfl
@[simp] theorem State.writeKey_codebuf (a : Nat) (v : Byte) : (s.writeKey a v).codebuf = s.codebuf := rfl
@[simp] theorem State.writeKey_keybuf (a : Nat) (v : Byte) : (s.writeKey a v).keybuf = s.keybuf.write a v := rfl
@[simp] theorem State.writeKey_params (a : Nat) (v : Byte) : (s.writeKey a v).params = s.params := rfl
@[simp] theorem State.writeKey_epoch (a : Nat) (v : Byte) : (s.writeKey a v).epoch = s.epoch := rfl
@[simp] theorem State.writeKey_inputs (a : Nat) (v : Byte) : (s.writeKey a v).inputs = s.inputs := rfl
@[simp] theorem State.writeKey_responses (a : Nat) (v : Byte) : (s.writeKey a v).responses = s.responses := rfl

@[simp] theorem State.setCand_err (v : Nibbles16) : (s.setCand v).err = s.err := rfl
@[simp] theorem State.setCand_ptValid (v : Nibbles16) : (s.setCand v).ptValid = s.ptValid := rfl
@[simp] theorem State.setCand_cause (v : Nibbles16) : (s.setCand v).cause = s.cause := rfl
@[simp] theorem State.setCand_degcnt (v : Nibbles16) : (s.setCand v).degcnt = s.degcnt := rfl
@[simp] theorem State.setCand_keylen (v : Nibbles16) : (s.setCand v).keylen = s.keylen := rfl
@[simp] theorem State.setCand_rowlen (v : Nibbles16) : (s.setCand v).rowlen = s.rowlen := rfl
@[simp] theorem State.setCand_slot (v : Nibbles16) : (s.setCand v).slot = s.slot := rfl
@[simp] theorem State.setCand_cand (v : Nibbles16) : (s.setCand v).cand = v := rfl
@[simp] theorem State.setCand_rowbuf (v : Nibbles16) : (s.setCand v).rowbuf = s.rowbuf := rfl
@[simp] theorem State.setCand_codebuf (v : Nibbles16) : (s.setCand v).codebuf = s.codebuf := rfl
@[simp] theorem State.setCand_keybuf (v : Nibbles16) : (s.setCand v).keybuf = s.keybuf := rfl
@[simp] theorem State.setCand_params (v : Nibbles16) : (s.setCand v).params = s.params := rfl
@[simp] theorem State.setCand_epoch (v : Nibbles16) : (s.setCand v).epoch = s.epoch := rfl
@[simp] theorem State.setCand_inputs (v : Nibbles16) : (s.setCand v).inputs = s.inputs := rfl
@[simp] theorem State.setCand_responses (v : Nibbles16) : (s.setCand v).responses = s.responses := rfl

@[simp] theorem State.setTable_err (v : Nibbles16) : (s.setTable v).err = s.err := rfl
@[simp] theorem State.setTable_ptValid (v : Nibbles16) : (s.setTable v).ptValid = true := rfl
@[simp] theorem State.setTable_cause (v : Nibbles16) : (s.setTable v).cause = s.cause := rfl
@[simp] theorem State.setTable_degcnt (v : Nibbles16) : (s.setTable v).degcnt = s.degcnt := rfl
@[simp] theorem State.setTable_keylen (v : Nibbles16) : (s.setTable v).keylen = s.keylen := rfl
@[simp] theorem State.setTable_rowlen (v : Nibbles16) : (s.setTable v).rowlen = s.rowlen := rfl
@[simp] theorem State.setTable_slot (v : Nibbles16) : (s.setTable v).slot = v := rfl
@[simp] theorem State.setTable_cand (v : Nibbles16) : (s.setTable v).cand = s.cand := rfl
@[simp] theorem State.setTable_rowbuf (v : Nibbles16) : (s.setTable v).rowbuf = s.rowbuf := rfl
@[simp] theorem State.setTable_codebuf (v : Nibbles16) : (s.setTable v).codebuf = s.codebuf := rfl
@[simp] theorem State.setTable_keybuf (v : Nibbles16) : (s.setTable v).keybuf = s.keybuf := rfl
@[simp] theorem State.setTable_params (v : Nibbles16) : (s.setTable v).params = s.params := rfl
@[simp] theorem State.setTable_epoch (v : Nibbles16) : (s.setTable v).epoch = s.epoch := rfl
@[simp] theorem State.setTable_inputs (v : Nibbles16) : (s.setTable v).inputs = s.inputs := rfl
@[simp] theorem State.setTable_responses (v : Nibbles16) : (s.setTable v).responses = s.responses := rfl

@[simp] theorem State.setKeylen_err (n : BitVec 16) : (s.setKeylen n).err = s.err := rfl
@[simp] theorem State.setKeylen_ptValid (n : BitVec 16) : (s.setKeylen n).ptValid = false := rfl
@[simp] theorem State.setKeylen_cause (n : BitVec 16) : (s.setKeylen n).cause = s.cause := rfl
@[simp] theorem State.setKeylen_degcnt (n : BitVec 16) : (s.setKeylen n).degcnt = s.degcnt := rfl
@[simp] theorem State.setKeylen_keylen (n : BitVec 16) : (s.setKeylen n).keylen = n := rfl
@[simp] theorem State.setKeylen_rowlen (n : BitVec 16) : (s.setKeylen n).rowlen = s.rowlen := rfl
@[simp] theorem State.setKeylen_slot (n : BitVec 16) : (s.setKeylen n).slot = s.slot := rfl
@[simp] theorem State.setKeylen_cand (n : BitVec 16) : (s.setKeylen n).cand = s.cand := rfl
@[simp] theorem State.setKeylen_rowbuf (n : BitVec 16) : (s.setKeylen n).rowbuf = s.rowbuf := rfl
@[simp] theorem State.setKeylen_codebuf (n : BitVec 16) : (s.setKeylen n).codebuf = s.codebuf := rfl
@[simp] theorem State.setKeylen_keybuf (n : BitVec 16) : (s.setKeylen n).keybuf = s.keybuf := rfl
@[simp] theorem State.setKeylen_params (n : BitVec 16) : (s.setKeylen n).params = s.params := rfl
@[simp] theorem State.setKeylen_epoch (n : BitVec 16) : (s.setKeylen n).epoch = s.epoch := rfl
@[simp] theorem State.setKeylen_inputs (n : BitVec 16) : (s.setKeylen n).inputs = s.inputs := rfl
@[simp] theorem State.setKeylen_responses (n : BitVec 16) : (s.setKeylen n).responses = s.responses := rfl

@[simp] theorem State.setRowlen_err (n : BitVec 13) : (s.setRowlen n).err = s.err := rfl
@[simp] theorem State.setRowlen_ptValid (n : BitVec 13) : (s.setRowlen n).ptValid = s.ptValid := rfl
@[simp] theorem State.setRowlen_cause (n : BitVec 13) : (s.setRowlen n).cause = s.cause := rfl
@[simp] theorem State.setRowlen_degcnt (n : BitVec 13) : (s.setRowlen n).degcnt = s.degcnt := rfl
@[simp] theorem State.setRowlen_keylen (n : BitVec 13) : (s.setRowlen n).keylen = s.keylen := rfl
@[simp] theorem State.setRowlen_rowlen (n : BitVec 13) : (s.setRowlen n).rowlen = n := rfl
@[simp] theorem State.setRowlen_slot (n : BitVec 13) : (s.setRowlen n).slot = s.slot := rfl
@[simp] theorem State.setRowlen_cand (n : BitVec 13) : (s.setRowlen n).cand = s.cand := rfl
@[simp] theorem State.setRowlen_rowbuf (n : BitVec 13) : (s.setRowlen n).rowbuf = s.rowbuf := rfl
@[simp] theorem State.setRowlen_codebuf (n : BitVec 13) : (s.setRowlen n).codebuf = s.codebuf := rfl
@[simp] theorem State.setRowlen_keybuf (n : BitVec 13) : (s.setRowlen n).keybuf = s.keybuf := rfl
@[simp] theorem State.setRowlen_params (n : BitVec 13) : (s.setRowlen n).params = s.params := rfl
@[simp] theorem State.setRowlen_epoch (n : BitVec 13) : (s.setRowlen n).epoch = s.epoch := rfl
@[simp] theorem State.setRowlen_inputs (n : BitVec 13) : (s.setRowlen n).inputs = s.inputs := rfl
@[simp] theorem State.setRowlen_responses (n : BitVec 13) : (s.setRowlen n).responses = s.responses := rfl

@[simp] theorem State.withCommand_err (w : Word) : (s.withCommand w).err = s.err := rfl
@[simp] theorem State.withCommand_ptValid (w : Word) : (s.withCommand w).ptValid = s.ptValid := rfl
@[simp] theorem State.withCommand_cause (w : Word) : (s.withCommand w).cause = s.cause := rfl
@[simp] theorem State.withCommand_degcnt (w : Word) : (s.withCommand w).degcnt = s.degcnt := rfl
@[simp] theorem State.withCommand_keylen (w : Word) : (s.withCommand w).keylen = s.keylen := rfl
@[simp] theorem State.withCommand_rowlen (w : Word) : (s.withCommand w).rowlen = s.rowlen := rfl
@[simp] theorem State.withCommand_slot (w : Word) : (s.withCommand w).slot = s.slot := rfl
@[simp] theorem State.withCommand_cand (w : Word) : (s.withCommand w).cand = s.cand := rfl
@[simp] theorem State.withCommand_rowbuf (w : Word) : (s.withCommand w).rowbuf = s.rowbuf := rfl
@[simp] theorem State.withCommand_codebuf (w : Word) : (s.withCommand w).codebuf = s.codebuf := rfl
@[simp] theorem State.withCommand_keybuf (w : Word) : (s.withCommand w).keybuf = s.keybuf := rfl
@[simp] theorem State.withCommand_params (w : Word) : (s.withCommand w).params = s.params := rfl
@[simp] theorem State.withCommand_epoch (w : Word) : (s.withCommand w).epoch = s.epoch := rfl
@[simp] theorem State.withCommand_inputs (w : Word) : (s.withCommand w).inputs = .command w :: s.inputs := rfl
@[simp] theorem State.withCommand_responses (w : Word) : (s.withCommand w).responses = s.responses := rfl

@[simp] theorem State.acceptReset_err : s.acceptReset.err = false := rfl
@[simp] theorem State.acceptReset_ptValid : s.acceptReset.ptValid = false := rfl
@[simp] theorem State.acceptReset_cause : s.acceptReset.cause = 0 := rfl
@[simp] theorem State.acceptReset_degcnt : s.acceptReset.degcnt = 0 := rfl
@[simp] theorem State.acceptReset_keylen : s.acceptReset.keylen = 0 := rfl
@[simp] theorem State.acceptReset_rowlen : s.acceptReset.rowlen = 0 := rfl
@[simp] theorem State.acceptReset_slot : s.acceptReset.slot = Vector.replicate 16 0 := rfl
@[simp] theorem State.acceptReset_cand : s.acceptReset.cand = Vector.replicate 16 0 := rfl
@[simp] theorem State.acceptReset_rowbuf : s.acceptReset.rowbuf = [] := rfl
@[simp] theorem State.acceptReset_codebuf : s.acceptReset.codebuf = [] := rfl
@[simp] theorem State.acceptReset_keybuf : s.acceptReset.keybuf = [] := rfl
@[simp] theorem State.acceptReset_params : s.acceptReset.params = s.params := rfl
@[simp] theorem State.acceptReset_epoch : s.acceptReset.epoch = s.epoch + 1 := rfl
@[simp] theorem State.acceptReset_inputs : s.acceptReset.inputs = s.inputs := rfl
@[simp] theorem State.acceptReset_responses : s.acceptReset.responses = s.responses := rfl

end Sys2Proof.Machine
end

