-- ==== Sys2Proof/Laws/Memory.lean ====
section
/-!
SUPPORT. The laws of buffers: read after write, a write leaves every other entry alone, every write keeps the canonical
form and the bound, and two canonical buffers that read alike are equal.
-/

namespace Sys2Proof.Machine

open Sys2Proof.Safety

variable {α : Type}

theorem Memory.read_write_same (m : Memory α) (a : Nat) (v : α) : (Memory.write m a v).read a = some v := by
  induction m with
  | nil => simp [Memory.write, Memory.read]
  | cons c m ih =>
    obtain ⟨b, x⟩ := c
    rcases Nat.lt_trichotomy a b with h | h | h
    · simp [Memory.write, Memory.read, h]
    · simp [Memory.write, Memory.read, h]
    · simp [Memory.write, Memory.read, Nat.lt_asymm h, Nat.ne_of_gt h, ih]

theorem Memory.read_write_other (m : Memory α) {a b : Nat} (v : α) (h : b ≠ a) :
    (Memory.write m a v).read b = m.read b := by
  induction m with
  | nil => simp [Memory.write, Memory.read, h]
  | cons c m ih =>
    obtain ⟨k, x⟩ := c
    rcases Nat.lt_trichotomy a k with hk | hk | hk
    · simp [Memory.write, Memory.read, hk, h]
    · subst hk
      simp [Memory.write, Memory.read, h]
    · simp [Memory.write, Memory.read, Nat.lt_asymm hk, Nat.ne_of_gt hk, ih]

theorem Memory.read_write (m : Memory α) (a b : Nat) (v : α) :
    (Memory.write m a v).read b = if b = a then some v else m.read b := by
  split
  · next h => rw [h, Memory.read_write_same]
  · next h => exact Memory.read_write_other m v h

/-- The entries of a buffer after a write are the new one and old ones. -/
theorem Memory.mem_write {m : Memory α} {a : Nat} {v : α} {c : Nat × α} (h : c ∈ Memory.write m a v) :
    c = (a, v) ∨ c ∈ m := by
  induction m with
  | nil => simpa [Memory.write] using h
  | cons d m ih =>
    obtain ⟨b, x⟩ := d
    unfold Memory.write at h
    split at h
    · simpa using h
    · split at h
      · simp only [List.mem_cons] at h ⊢
        exact h.imp_right .inr
      · simp only [List.mem_cons] at h ⊢
        rcases h with h | h
        · exact .inr (.inl h)
        · exact (ih h).imp_right .inr

theorem Memory.wf_cons {c : Nat × α} {m : Memory α} :
    Memory.wf (c :: m) = true ↔ (∀ d ∈ m, c.1 < d.1) ∧ m.wf = true := by
  simp [Memory.wf]

/-- Every write keeps the canonical form. -/
theorem Memory.wf_write {m : Memory α} (a : Nat) (v : α) (h : m.wf = true) : (Memory.write m a v).wf = true := by
  induction m with
  | nil => simp [Memory.write, Memory.wf]
  | cons c m ih =>
    obtain ⟨b, x⟩ := c
    obtain ⟨hb, hm⟩ := Memory.wf_cons.1 h
    rcases Nat.lt_trichotomy a b with hk | hk | hk
    · simp only [Memory.write, hk, if_true]
      refine Memory.wf_cons.2 ⟨fun d hd => ?_, h⟩
      rcases List.mem_cons.1 hd with rfl | hd
      · exact hk
      · exact hk.trans (hb d hd)
    · subst hk
      simp only [Memory.write, Nat.lt_irrefl, if_false, if_true]
      exact Memory.wf_cons.2 ⟨hb, hm⟩
    · simp only [Memory.write, Nat.lt_asymm hk, Nat.ne_of_gt hk, if_false]
      refine Memory.wf_cons.2 ⟨fun d hd => ?_, ih hm⟩
      rcases Memory.mem_write hd with rfl | hd
      · exact hk
      · exact hb d hd

/-- A write to an entry the buffer has keeps the bound. -/
theorem Memory.within_write {m : Memory α} {size a : Nat} (v : α) (h : Within size m) (ha : a < size) :
    Within size (Memory.write m a v) := by
  intro c hc
  rcases Memory.mem_write hc with rfl | hc
  · exact ha
  · exact h c hc

theorem Memory.read_eq_none_of_lt {m : Memory α} {a : Nat} (h : ∀ d ∈ m, a < d.1) : m.read a = none := by
  induction m with
  | nil => rfl
  | cons c m ih =>
    have hc := h c (by simp)
    have : a ≠ c.1 := Nat.ne_of_lt hc
    simp only [Memory.read, this, if_false]
    exact ih fun d hd => h d (by simp [hd])

/-- In a canonical buffer the first entry is what its index reads as, and the rest is what the others read as. -/
theorem Memory.read_cons_tail {b : Nat} {x : α} {m : Memory α} (h : Memory.wf ((b, x) :: m) = true) (a : Nat) :
    m.read a = if a = b then none else Memory.read ((b, x) :: m) a := by
  split
  · next hab => subst hab; exact Memory.read_eq_none_of_lt (Memory.wf_cons.1 h).1
  · next hab => simp [Memory.read, hab]

end Sys2Proof.Machine
end

