-- ==== Sys2Proof/Laws/Loops.lean ====
section
/-!
SUPPORT. The loops of PP.EMBED and PP.EXTRACT (42_pixel_plane.md R185, R190): what they write, and that they write
nothing else.
-/

namespace Sys2Proof.Machine

variable (n : Nat) (s : State)

/-- The embedding loop changes ROWBUF only. -/
theorem embedLoop_frame : embedLoop n s = { s with rowbuf := (embedLoop n s).rowbuf } := by
  induction n with
  | zero => rfl
  | succ n ih => rw [embedLoop, ih]; rfl

/-- The extracting loop changes CODEBUF only. -/
theorem extractLoop_frame : extractLoop n s = { s with codebuf := (extractLoop n s).codebuf } := by
  induction n with
  | zero => rfl
  | succ n ih => rw [extractLoop, ih]; rfl

theorem embedLoop_codeEntry (a : Nat) : (embedLoop n s).codeEntry a = s.codeEntry a := by
  rw [embedLoop_frame]; rfl

theorem extractLoop_rowEntry (a : Nat) : (extractLoop n s).rowEntry a = s.rowEntry a := by
  rw [extractLoop_frame]; rfl

theorem fragmentAt_congr {f g : Nat → Nibble} (h : ∀ a, f a = g a) (j : Nat) : fragmentAt f j = fragmentAt g j := by
  simp [fragmentAt, h]

/-- What ROWBUF holds after the embedding loop: a merged sample below `n`, the old entry from `n` on. -/
theorem embedLoop_read (a : Nat) :
    (embedLoop n s).rowbuf.read a =
      if a < n then some (mergeFragment (s.rowEntry a) (fragmentAt s.codeEntry a)) else s.rowbuf.read a := by
  induction n with
  | zero => simp [embedLoop]
  | succ n ih =>
    have epoch : (embedLoop n s).epoch = s.epoch := by rw [embedLoop_frame]
    simp only [embedLoop, State.writeRow_rowbuf, Memory.read_write]
    by_cases h : a = n
    · subst h
      simp only [Nat.lt_irrefl, if_false] at ih
      simp [State.rowEntry, ih, epoch, fragmentAt_congr (embedLoop_codeEntry a s)]
    · have : (a < n + 1) = (a < n) := by rw [eq_iff_iff]; omega
      simp only [h, if_false, ih, this]

/-- What CODEBUF holds after the extracting loop: a recombined code below `n`, the old entry from `n` on. -/
theorem extractLoop_read (a : Nat) :
    (extractLoop n s).codebuf.read a =
      if a < n then some (recombine (s.rowEntry (2 * a)) (s.rowEntry (2 * a + 1))) else s.codebuf.read a := by
  induction n with
  | zero => simp [extractLoop]
  | succ n ih =>
    simp only [extractLoop, State.writeCode_codebuf, Memory.read_write, extractLoop_rowEntry]
    by_cases h : a = n
    · simp [h]
    · have : (a < n + 1) = (a < n) := by rw [eq_iff_iff]; omega
      simp only [h, if_false, ih, this]

theorem embedLoop_wf (h : s.rowbuf.wf = true) : (embedLoop n s).rowbuf.wf = true := by
  induction n with
  | zero => exact h
  | succ n ih => exact Memory.wf_write _ _ ih

theorem extractLoop_wf (h : s.codebuf.wf = true) : (extractLoop n s).codebuf.wf = true := by
  induction n with
  | zero => exact h
  | succ n ih => exact Memory.wf_write _ _ ih

theorem embedLoop_within {size : Nat} (h : Safety.Within size s.rowbuf) (hn : n ≤ size) :
    Safety.Within size (embedLoop n s).rowbuf := by
  induction n with
  | zero => exact h
  | succ n ih => exact Memory.within_write _ (ih (by omega)) hn

theorem extractLoop_within {size : Nat} (h : Safety.Within size s.codebuf) (hn : n ≤ size) :
    Safety.Within size (extractLoop n s).codebuf := by
  induction n with
  | zero => exact h
  | succ n ih => exact Memory.within_write _ (ih (by omega)) hn

end Sys2Proof.Machine
end

