-- ==== Sys2Proof/Laws/Tables.lean ====
section
/-!
SUPPORT. What an array search finds, and how the constant tables fit together (40_nibble_codec.md R108,
41_keyed_permutation.md R131 to R133).
-/

namespace Sys2Proof.Machine

open Sys2Proof.Safety

variable {α : Type} [DecidableEq α] {v : Vector α 16} {x : α}

theorem mem_indices (i : Nibble) : i ∈ indices := by
  revert i
  decide

/-- A search that answers an index found the value there. -/
theorem entry_of_indexOf {i : Nibble} (h : indexOf v x = some i) : entry v i = x := by
  simpa using List.find?_some h

/-- A search that answers nothing means the value is nowhere. -/
theorem indexOf_eq_none : indexOf v x = none ↔ ∀ i, entry v i ≠ x := by
  simp [indexOf, mem_indices]

/-- In an array without repeats, the search answers the one index that holds the value. -/
theorem indexOf_entry (inj : ∀ i j : Nibble, entry v i = entry v j → i = j) (i : Nibble) :
    indexOf v (entry v i) = some i := by
  cases h : indexOf v (entry v i) with
  | none => exact absurd rfl (indexOf_eq_none.1 h i)
  | some j => rw [inj j i (entry_of_indexOf h)]

/-- In a table that is a bijection every search succeeds (10_state.md R28). -/
theorem exists_indexOf_of_bijective {t : Nibbles16} (h : Bijective t) (c : Nibble) :
    ∃ i, indexOf t c = some i ∧ entry t i = c := by
  obtain ⟨i, rfl⟩ := h.surjective c
  exact ⟨i, indexOf_entry h.injective i, rfl⟩

omit [DecidableEq α] in
theorem entry_ofFn (f : Fin 16 → α) (i : Nibble) : entry (Vector.ofFn f) i = f ⟨i.toNat, i.isLt⟩ := by
  simp [entry]

omit [DecidableEq α] in
theorem entry_map {β : Type} (w : Vector β 16) (f : β → α) (i : Nibble) : entry (w.map f) i = f (entry w i) := by
  simp [entry]

omit [DecidableEq α] in
theorem entry_set (w : Vector α 16) (i j : Nibble) (y : α) :
    entry (w.set i.toNat y i.isLt) j = if j = i then y else entry w j := by
  unfold entry
  by_cases h : j = i
  · subst h; simp
  · have : i.toNat ≠ j.toNat := fun e => h (BitVec.eq_of_toNat_eq e.symm)
    simp [h, this]

/-- The tuples of EVID are pairwise distinct. -/
theorem evid_injective : ∀ i j : Nibble, entry evidTable i = entry evidTable j → i = j := by decide

/-- The triples of LUT_ENC are pairwise distinct (R108). -/
theorem lutEnc_injective : ∀ i j : Nibble, entry lutEncTable i = entry lutEncTable j → i = j := by decide

theorem evidIndex_evid (i : Nibble) : evidIndex (evid i) = some i := indexOf_entry evid_injective i

theorem lutDec_lutEnc (n : Nibble) : lutDec (lutEnc n) = some n := indexOf_entry lutEnc_injective n

/-- `EVID[IDX_OF_N[n]] = LUT_ENC[n]` (R133). -/
theorem evid_idxOfN : ∀ n : Nibble, evid (idxOfN n) = lutEnc n := by decide

theorem nOfIdx_idxOfN : ∀ n : Nibble, nOfIdx (idxOfN n) = n := by decide

theorem idxOfN_nOfIdx : ∀ i : Nibble, idxOfN (nOfIdx i) = i := by decide

/-- An evidence tuple decodes to its nibble: the tuples are the canonical triples (R132). -/
theorem lutDec_evid (i : Nibble) : lutDec (evid i) = some (nOfIdx i) := by
  rw [← lutDec_lutEnc, ← evid_idxOfN, idxOfN_nOfIdx]

end Sys2Proof.Machine
end

