-- ==== Sys2Proof/Laws/Probe.lean ====
section
/-!
SUPPORT. The probing step of 41_keyed_permutation.md R135: where one probe ends, and what the sixteen of them leave.
-/

namespace Sys2Proof.Machine

open Sys2Proof.Safety

/-- The slot `d` places after `c`, wrapping at 16. -/
abbrev slotAfter (c : Nibble) (d : Nat) : Nibble := c + BitVec.ofNat 4 d

/-- The bitmap marks just the slots of a list. -/
def Marks (used : BitVec 16) (done : List Nibble) : Prop := ∀ x : Nibble, used.getLsbD x.toNat = true ↔ x ∈ done

theorem marks_nil : Marks 0 [] := by
  intro x
  simp

theorem marks_markUsed {used : BitVec 16} {done : List Nibble} (h : Marks used done) (s : Nibble) :
    Marks (markUsed used s) (done ++ [s]) := by
  intro x
  have hx := x.isLt
  have : (1#16 <<< s.toNat).getLsbD x.toNat = true ↔ x = s := by
    rw [← BitVec.toNat_inj]
    have hs := s.isLt
    simp
    omega
  simp only [markUsed, BitVec.getLsbD_or, Bool.or_eq_true, h x, this, List.mem_append, List.mem_singleton]

/-- One probe moves `d` places, over used slots only, and stops at a free slot unless its moves run out. -/
theorem probeFrom_moves (used : BitVec 16) (fuel : Nat) (s : Nibble) :
    ∃ d, d ≤ fuel ∧ probeFrom used fuel s = slotAfter s d ∧
      (∀ e, e < d → used.getLsbD (slotAfter s e).toNat = true) ∧
      (d < fuel → used.getLsbD (slotAfter s d).toNat = false) := by
  induction fuel generalizing s with
  | zero => exact ⟨0, Nat.le_refl 0, by simp [probeFrom], by simp, by simp⟩
  | succ n ih =>
    by_cases hs : used.getLsbD s.toNat = true
    · obtain ⟨d, hd, he, hused, hfree⟩ := ih (s + 1)
      have shift : ∀ e, slotAfter (s + 1) e = slotAfter s (e + 1) := fun e => by
        simp only [slotAfter, BitVec.add_assoc, BitVec.ofNat_add]
        rw [BitVec.add_comm 1]
        rfl
      refine ⟨d + 1, by omega, by rw [probeFrom, if_pos hs, he, shift], fun e hlt => ?_, fun hlt => ?_⟩
      · cases e with
        | zero => simpa using hs
        | succ e => rw [← shift]; exact hused e (by omega)
      · rw [← shift]; exact hfree (by omega)
    · exact ⟨0, by omega, by simp [probeFrom, hs], by simp, by simpa using hs⟩

theorem slotAfter_injOn (c : Nibble) {d e : Nat} (hd : d < 16) (he : e < 16) (h : slotAfter c d = slotAfter c e) :
    d = e := by
  have := congrArg BitVec.toNat h
  simp only [slotAfter, BitVec.toNat_add, BitVec.toNat_ofNat] at this
  omega

/-- A probe over the slots of a list without repeats makes at most as many moves as the list is long. -/
theorem moves_le_length {done : List Nibble} {c : Nibble} {d : Nat} (hd : d ≤ 16)
    (h : ∀ e, e < d → slotAfter c e ∈ done) : d ≤ done.length := by
  have nd : ((List.range d).map (slotAfter c)).Nodup := by
    refine List.Nodup.map_on (fun a ha b hb hab => ?_) List.nodup_range
    simp only [List.mem_range] at ha hb
    exact slotAfter_injOn c (by omega) (by omega) hab
  have sub : (List.range d).map (slotAfter c) ⊆ done := by
    intro x hx
    obtain ⟨e, he, rfl⟩ := List.mem_map.1 hx
    exact h e (List.mem_range.1 he)
  simpa using (List.subperm_of_subset nd sub).length_le

/-- What one probe over a list of at most fifteen marked slots gives. -/
theorem probeFrom_finds_free {used : BitVec 16} {done : List Nibble} (h : Marks used done)
    (hlen : done.length < 16) (c : Nibble) :
    ∃ d, d ≤ done.length ∧ probeFrom used 16 c = slotAfter c d ∧ (∀ e, e < d → slotAfter c e ∈ done) ∧
      slotAfter c d ∉ done := by
  obtain ⟨d, hd, heq, hused, hfree⟩ := probeFrom_moves used 16 c
  have hin : ∀ e, e < d → slotAfter c e ∈ done := fun e he => (h _).1 (hused e he)
  have hle := moves_le_length hd hin
  refine ⟨d, hle, heq, hin, fun hmem => ?_⟩
  have := hfree (by omega)
  rw [(h _).2 hmem] at this
  exact Bool.noConfusion this

theorem length_assignSlots (used : BitVec 16) (cs : List Nibble) : (assignSlots used cs).length = cs.length := by
  induction cs generalizing used with
  | nil => rfl
  | cons c cs ih => simp [assignSlots, ih]

/-- What the probing step gives, candidate by candidate: each slot is the first free one at or after its candidate. -/
theorem assignSlots_spec (cs : List Nibble) (used : BitVec 16) (done : List Nibble) (h : Marks used done)
    (nd : done.Nodup) (hlen : done.length + cs.length ≤ 16) :
    (done ++ assignSlots used cs).Nodup ∧
    ∀ i c, cs[i]? = some c → ∃ d, d ≤ done.length + i ∧ (assignSlots used cs)[i]? = some (slotAfter c d) ∧
      ∀ e, e < d → slotAfter c e ∈ done ++ (assignSlots used cs).take i := by
  induction cs generalizing used done with
  | nil => exact ⟨by simpa [assignSlots] using nd, by simp⟩
  | cons c cs ih =>
    simp only [List.length_cons] at hlen
    obtain ⟨d, hd, heq, hin, hout⟩ := probeFrom_finds_free h (by omega) c
    have nd' : (done ++ [slotAfter c d]).Nodup := List.nodup_append.2 ⟨nd, by simp, by
      rintro x hx y hy rfl
      rw [List.mem_singleton] at hy
      exact hout (hy ▸ hx)⟩
    obtain ⟨hnd, hrest⟩ := ih _ _ (marks_markUsed h (slotAfter c d)) nd' (by simp; omega)
    simp only [assignSlots, heq]
    refine ⟨by simpa using hnd, fun i c' hi => ?_⟩
    cases i with
    | zero =>
      simp only [List.getElem?_cons_zero, Option.some.injEq] at hi
      subst hi
      exact ⟨d, by omega, by simp, fun e he => by simpa using hin e he⟩
    | succ i =>
      obtain ⟨d', hd', hget, hpast⟩ := hrest i c' (by simpa using hi)
      refine ⟨d', by simp at hd'; omega, by simpa using hget, fun e he => ?_⟩
      simpa using hpast e he

theorem entry_toList (v : Nibbles16) (i : Nibble) : v.toList[i.toNat]? = some (entry v i) := by
  have := i.isLt
  simp [entry]

theorem entry_probe (cand : Nibbles16) (i : Nibble) :
    (assignSlots 0 cand.toList)[i.toNat]? = some (entry (probe cand) i) := by
  have hi : i.toNat < (assignSlots 0 cand.toList).length := by
    rw [length_assignSlots]; simp [i.isLt]
  rw [probe, entry_ofFn, List.getD_eq_getElem?_getD, List.getElem?_eq_getElem hi]
  rfl

theorem nodup_assignSlots (cand : Nibbles16) : (assignSlots 0 cand.toList).Nodup := by
  simpa using (assignSlots_spec cand.toList 0 [] marks_nil List.nodup_nil (by simp)).1

theorem probe_entry_injective (cand : Nibbles16) (i j : Nibble)
    (h : entry (probe cand) i = entry (probe cand) j) : i = j := by
  apply BitVec.eq_of_toNat_eq
  have hi : i.toNat < (assignSlots 0 cand.toList).length := by rw [length_assignSlots]; simp [i.isLt]
  refine (List.getElem?_inj hi (nodup_assignSlots cand)).1 ?_
  rw [entry_probe, entry_probe, h]

/-- An array of sixteen nibbles without repeats holds every nibble. -/
theorem bijective_of_injective {v : Nibbles16} (h : ∀ i j : Nibble, entry v i = entry v j → i = j) :
    Bijective v := by
  refine ⟨h, ?_⟩
  have inj : Function.Injective fun i : Fin 16 => (entry v (BitVec.ofFin i)).toFin := by
    intro i j hij
    have := h _ _ (BitVec.eq_of_toFin_eq hij)
    simpa using congrArg BitVec.toFin this
  intro c
  obtain ⟨i, hi⟩ := Finite.surjective_of_injective inj c.toFin
  exact ⟨BitVec.ofFin i, BitVec.eq_of_toFin_eq hi⟩

/-- Where the probing step puts tuple `i`: the first slot at or after its candidate that no earlier tuple has. -/
theorem probe_first_free (cand : Nibbles16) (i : Nibble) :
    ∃ d, d ≤ i.toNat ∧ entry (probe cand) i = slotAfter (entry cand i) d ∧
      ∀ e, e < d → ∃ j : Nibble, j < i ∧ entry (probe cand) j = slotAfter (entry cand i) e := by
  obtain ⟨d, hd, hget, hpast⟩ := (assignSlots_spec cand.toList 0 [] marks_nil List.nodup_nil (by simp)).2
    i.toNat (entry cand i) (entry_toList cand i)
  rw [entry_probe, Option.some.injEq] at hget
  refine ⟨d, by simpa using hd, hget, fun e he => ?_⟩
  obtain ⟨k, hk, hkeq⟩ := List.mem_take_iff_getElem.1 (List.nil_append _ ▸ hpast e he)
  have hi := i.isLt
  have hlen : k < (assignSlots 0 cand.toList).length := by omega
  have hk16 : k < 16 := by omega
  refine ⟨BitVec.ofNat 4 k, ?_, ?_⟩
  · rw [BitVec.lt_def, BitVec.toNat_ofNat]; omega
  · have hp := entry_probe cand (BitVec.ofNat 4 k)
    rw [BitVec.toNat_ofNat, Nat.mod_eq_of_lt hk16, List.getElem?_eq_getElem hlen, hkeq] at hp
    exact (Option.some.inj hp).symm

end Sys2Proof.Machine
end

