-- ==== Sys2Proof/Laws/Ops.lean ====
section
/-!
SUPPORT. What the shared operations and the meanings can do, said once: how a command ends (00_scope.md R10), and the ways a command's own rule ends (`exec_ending`), from which the rules about all commands follow.
-/

namespace Sys2Proof.Machine

variable {s t : State}

theorem respondOk_next {r : BitVec 16} : respondOk r s = .next t ↔ t = s.answer (okWord r) := by
  simp [respondOk, eq_comm]

theorem raise_next {c : Cause} : raise c s = .next t ↔ t = (s.latch c).answer (errorWord c) := by
  simp [raise, eq_comm]

theorem degrade_next : degrade s = .next t ↔ t = s.countDegraded.answer degradedWord := by
  simp [degrade, eq_comm]

/-- The fields of a response word (30_encoding.md R80). -/
theorem responseWord_fields (st : Status) (c : BitVec 4) (r : BitVec 16) :
    (responseWord st c r).extractLsb' 30 2 = st.bits ∧ (responseWord st c r).extractLsb' 20 10 = 0 ∧
    (responseWord st c r).extractLsb' 16 4 = c ∧ (responseWord st c r).extractLsb' 0 16 = r := by
  unfold responseWord
  refine ⟨?_, ?_, ?_, ?_⟩ <;>
  · ext i hi
    simp only [BitVec.getElem_extractLsb', BitVec.getLsbD_append]
    repeat' split
    all_goals first | omega | (rw [← BitVec.getLsbD_eq_getElem]; congr 1; omega)

/-- The commands that can respond DEGRADED (60_exceptions.md R244). -/
def CanDegrade : Instr → Prop
  | .ncDec _ | .kpFwd _ | .kpInv _ => True
  | _ => False

/-- What an OK command may change: everything but the status registers, the sizes, the epoch and the port. -/
def SameStatus (s u : State) : Prop :=
  u.err = s.err ∧ u.cause = s.cause ∧ u.degcnt = s.degcnt ∧ u.params = s.params ∧ u.epoch = s.epoch ∧
  u.inputs = s.inputs ∧ u.responses = s.responses

theorem SameStatus.refl (s : State) : SameStatus s s := ⟨rfl, rfl, rfl, rfl, rfl, rfl, rfl⟩

theorem sameStatus_embedLoop (n : Nat) (s : State) : SameStatus s (embedLoop n s) := by
  rw [embedLoop_frame]
  exact ⟨rfl, rfl, rfl, rfl, rfl, rfl, rfl⟩

theorem sameStatus_extractLoop (n : Nat) (s : State) : SameStatus s (extractLoop n s) := by
  rw [extractLoop_frame]
  exact ⟨rfl, rfl, rfl, rfl, rfl, rfl, rfl⟩

/-- The ways a command's own rule ends: an error that changes nothing else, a counted fallback, an OK response
after an effect that leaves the status registers alone (or is STAT.CLR's), or one of the two faults. -/
inductive Ending (i : Instr) (s : State) (o : Result) : Prop where
  | raised (c : Cause) (h : o = raise c s)
  | degraded (h : o = degrade s) (hi : CanDegrade i)
  | ok (r : BitVec 16) (u : State) (h : o = respondOk r u) (hu : SameStatus s u)
  | cleared (h : o = respondOk 0 s.clearStatus) (hi : i = .statClr)
  | faulted (f : Fault) (h : o = .fault f)

/-- How every command's own rule ends. -/
theorem exec_ending (i : Instr) (s : State) : Ending i s (exec i s) := by
  have same : SameStatus s s := SameStatus.refl s
  cases i with
  | nop => exact .ok _ s rfl same
  | ncEnc v => exact .ok _ s rfl same
  | ncDec x =>
    simp only [exec, execNcDec]
    split
    · exact .ok _ s rfl same
    · exact .degraded rfl trivial
  | keyClr => exact .ok _ _ rfl ⟨rfl, rfl, rfl, rfl, rfl, rfl, rfl⟩
  | keyPut v =>
    simp only [exec, execKeyPut]
    split
    · exact .raised _ rfl
    · split
      · exact .faulted _ rfl
      · exact .ok _ _ rfl ⟨rfl, rfl, rfl, rfl, rfl, rfl, rfl⟩
  | kpSetc idx sv => exact .ok _ _ rfl ⟨rfl, rfl, rfl, rfl, rfl, rfl, rfl⟩
  | kpBuild =>
    simp only [exec, execKpBuild]
    split
    · exact .faulted _ rfl
    · exact .ok _ _ rfl ⟨rfl, rfl, rfl, rfl, rfl, rfl, rfl⟩
  | kpProbe => exact .ok _ _ rfl ⟨rfl, rfl, rfl, rfl, rfl, rfl, rfl⟩
  | kpFwd x =>
    simp only [exec, execKpFwd]
    split
    · split
      · exact .ok _ s rfl same
      · exact .degraded rfl trivial
    · exact .raised _ rfl
  | kpInv v =>
    simp only [exec, execKpInv]
    split
    · split
      · exact .ok _ s rfl same
      · exact .degraded rfl trivial
    · exact .raised _ rfl
  | rowLen count =>
    simp only [exec, execRowLen]
    split
    · exact .raised _ rfl
    · exact .ok _ _ rfl ⟨rfl, rfl, rfl, rfl, rfl, rfl, rfl⟩
  | rowWr addr d =>
    simp only [exec, execRowWr]
    split
    · exact .raised _ rfl
    · exact .ok _ _ rfl ⟨rfl, rfl, rfl, rfl, rfl, rfl, rfl⟩
  | rowRd addr =>
    simp only [exec, execRowRd]
    split
    · exact .raised _ rfl
    · exact .ok _ s rfl same
  | codeWr addr d =>
    simp only [exec, execCodeWr]
    split
    · exact .raised _ rfl
    · exact .ok _ _ rfl ⟨rfl, rfl, rfl, rfl, rfl, rfl, rfl⟩
  | codeRd addr =>
    simp only [exec, execCodeRd]
    split
    · exact .raised _ rfl
    · exact .ok _ s rfl same
  | ppEmbed count =>
    simp only [exec, execPpEmbed]
    split
    · exact .raised _ rfl
    · split
      · exact .faulted _ rfl
      · exact .ok _ _ rfl (sameStatus_embedLoop _ s)
  | ppExtract count =>
    simp only [exec, execPpExtract]
    split
    · exact .raised _ rfl
    · split
      · exact .faulted _ rfl
      · exact .ok _ _ rfl (sameStatus_extractLoop _ s)
  | xfEnc v =>
    simp only [exec, execXfEnc]
    split
    · exact .ok _ s rfl same
    · exact .raised _ rfl
  | xfDec v =>
    simp only [exec, execXfDec]
    split
    · split
      · exact .ok _ s rfl same
      · exact .faulted _ rfl
    · exact .raised _ rfl
  | regRd v =>
    simp only [exec, execRegRd]
    split
    · exact .ok _ s rfl same
    · exact .raised _ rfl
  | statClr => exact .cleared rfl rfl

end Sys2Proof.Machine
end

