-- ==== Sys2Proof/Laws/Decode.lean ====
section
/-!
SUPPORT. The decoder and the encoder, format by format (30_encoding.md R71 to R73, R78).
-/

namespace Sys2Proof

theorem opcodeOf_code (o : Opcode) : opcodeOf o.code = some o := by
  cases o <;> decide

theorem code_of_opcodeOf {b : BitVec 8} {o : Opcode} (h : opcodeOf b = some o) : o.code = b := by
  simpa using List.find?_some h

theorem mem_all (o : Opcode) : o ∈ Opcode.all := by
  cases o <;> decide

/-- An opcode that is no row of R75 is unallocated. -/
theorem opcodeOf_eq_none {b : BitVec 8} : opcodeOf b = none ↔ ∀ o : Opcode, o.code ≠ b := by
  simp [opcodeOf, mem_all]

/-- Decoding a word with an allocated opcode. -/
theorem decode_of_code {w : Word} {o : Opcode} (h : opcField w = o.code) :
    decode w = if w &&& o.format.reservedMask = 0 then .ok (withFields o w) else .error .reserved := by
  simp [decode, h, opcodeOf_code]

/-- Decoding a word with an unallocated opcode. -/
theorem decode_of_unallocated {w : Word} (h : ∀ o : Opcode, o.code ≠ opcField w) :
    decode w = .error .illegalOpcode := by
  simp [decode, opcodeOf_eq_none.2 h]

/-- What a word that decodes to a command is. -/
theorem decode_eq_ok {w : Word} {i : Instr} :
    decode w = .ok i ↔
      ∃ o : Opcode, o.code = opcField w ∧ w &&& o.format.reservedMask = 0 ∧ withFields o w = i := by
  constructor
  · intro h
    unfold decode at h
    split at h
    · cases h
    · next o ho =>
      split at h
      · next hm => exact ⟨o, code_of_opcodeOf ho, hm, by simpa using h⟩
      · cases h
  · rintro ⟨o, hc, hm, rfl⟩
    rw [decode_of_code hc.symm, if_pos hm]


/-! The fields of an encoded word, format by format: the opcode, no reserved bit, the operands. -/

theorem encodeZ_fields (o : Opcode) :
    opcField (encodeZ o) = o.code ∧ encodeZ o &&& Format.z.reservedMask = 0 := by
  refine ⟨?_, ?_⟩ <;>
  · refine BitVec.eq_of_getLsbD_eq fun i hi => ?_
    simp only [opcField, encodeZ, Format.reservedMask, BitVec.getLsbD_and, BitVec.getLsbD_extractLsb',
      BitVec.getLsbD_append]
    interval_cases i <;> simp

theorem encodeN4_fields (o : Opcode) (v : Nibble) :
    opcField (encodeN4 o v) = o.code ∧ encodeN4 o v &&& Format.n4.reservedMask = 0 ∧
    field4 (encodeN4 o v) = v := by
  refine ⟨?_, ?_, ?_⟩ <;>
  · refine BitVec.eq_of_getLsbD_eq fun i hi => ?_
    simp only [opcField, field4, encodeN4, Format.reservedMask, BitVec.getLsbD_and, BitVec.getLsbD_extractLsb',
      BitVec.getLsbD_append]
    interval_cases i <;> simp

theorem encodeB8_fields (o : Opcode) (v : Byte) :
    opcField (encodeB8 o v) = o.code ∧ encodeB8 o v &&& Format.b8.reservedMask = 0 ∧
    field8 (encodeB8 o v) = v := by
  refine ⟨?_, ?_, ?_⟩ <;>
  · refine BitVec.eq_of_getLsbD_eq fun i hi => ?_
    simp only [opcField, field8, encodeB8, Format.reservedMask, BitVec.getLsbD_and, BitVec.getLsbD_extractLsb',
      BitVec.getLsbD_append]
    interval_cases i <;> simp

theorem encodeT12_fields (o : Opcode) (t : Triple) :
    opcField (encodeT12 o t) = o.code ∧ encodeT12 o t &&& Format.t12.reservedMask = 0 ∧
    fieldT (encodeT12 o t) = t := by
  refine ⟨?_, ?_, ?_⟩ <;>
  · refine BitVec.eq_of_getLsbD_eq fun i hi => ?_
    simp only [opcField, fieldT, encodeT12, Format.reservedMask, BitVec.getLsbD_and, BitVec.getLsbD_extractLsb',
      BitVec.getLsbD_append]
    interval_cases i <;> simp

theorem encodeIS_fields (o : Opcode) (idx sv : Nibble) :
    opcField (encodeIS o idx sv) = o.code ∧ encodeIS o idx sv &&& Format.is.reservedMask = 0 ∧
    fieldIdx (encodeIS o idx sv) = idx ∧
    field4 (encodeIS o idx sv) = sv := by
  refine ⟨?_, ?_, ?_, ?_⟩ <;>
  · refine BitVec.eq_of_getLsbD_eq fun i hi => ?_
    simp only [opcField, fieldIdx, field4, encodeIS, Format.reservedMask, BitVec.getLsbD_and, BitVec.getLsbD_extractLsb',
      BitVec.getLsbD_append]
    interval_cases i <;> simp

theorem encodeA_fields (o : Opcode) (addr : BitVec 12) :
    opcField (encodeA o addr) = o.code ∧ encodeA o addr &&& Format.a.reservedMask = 0 ∧
    fieldAddr (encodeA o addr) = addr := by
  refine ⟨?_, ?_, ?_⟩ <;>
  · refine BitVec.eq_of_getLsbD_eq fun i hi => ?_
    simp only [opcField, fieldAddr, encodeA, Format.reservedMask, BitVec.getLsbD_and, BitVec.getLsbD_extractLsb',
      BitVec.getLsbD_append]
    interval_cases i <;> simp

theorem encodeAB_fields (o : Opcode) (addr : BitVec 12) (d : Byte) :
    opcField (encodeAB o addr d) = o.code ∧ encodeAB o addr d &&& Format.ab.reservedMask = 0 ∧
    fieldAddr (encodeAB o addr d) = addr ∧
    field8 (encodeAB o addr d) = d := by
  refine ⟨?_, ?_, ?_, ?_⟩ <;>
  · refine BitVec.eq_of_getLsbD_eq fun i hi => ?_
    simp only [opcField, fieldAddr, field8, encodeAB, Format.reservedMask, BitVec.getLsbD_and, BitVec.getLsbD_extractLsb',
      BitVec.getLsbD_append]
    interval_cases i <;> simp

theorem encodeAN_fields (o : Opcode) (addr : BitVec 12) (d : Nibble) :
    opcField (encodeAN o addr d) = o.code ∧ encodeAN o addr d &&& Format.an.reservedMask = 0 ∧
    fieldAddr (encodeAN o addr d) = addr ∧
    field4 (encodeAN o addr d) = d := by
  refine ⟨?_, ?_, ?_, ?_⟩ <;>
  · refine BitVec.eq_of_getLsbD_eq fun i hi => ?_
    simp only [opcField, fieldAddr, field4, encodeAN, Format.reservedMask, BitVec.getLsbD_and, BitVec.getLsbD_extractLsb',
      BitVec.getLsbD_append]
    interval_cases i <;> simp

theorem encodeC13_fields (o : Opcode) (count : BitVec 13) :
    opcField (encodeC13 o count) = o.code ∧ encodeC13 o count &&& Format.c13.reservedMask = 0 ∧
    fieldCount (encodeC13 o count) = count := by
  refine ⟨?_, ?_, ?_⟩ <;>
  · refine BitVec.eq_of_getLsbD_eq fun i hi => ?_
    simp only [opcField, fieldCount, encodeC13, Format.reservedMask, BitVec.getLsbD_and, BitVec.getLsbD_extractLsb',
      BitVec.getLsbD_append]
    interval_cases i <;> simp

/-! A word with an allocated opcode and no reserved bit set is rebuilt from its fields, format by format. -/

theorem reservedBit_false {w m : Word} (h : w &&& m = 0) {i : Nat} (hm : m.getLsbD i = true) : w.getLsbD i = false := by
  simpa [hm] using congrArg (fun x => BitVec.getLsbD x i) h

theorem code_getLsbD {w : Word} {o : Opcode} (h : opcField w = o.code) (i : Nat) (hi : i < 8) :
    o.code.getLsbD i = w.getLsbD (24 + i) := by
  rw [← h]
  simp [opcField, hi]

theorem encodeZ_of_fields {w : Word} {o : Opcode} (h : opcField w = o.code)
    (hm : w &&& Format.z.reservedMask = 0) : encodeZ o = w := by
  refine BitVec.eq_of_getLsbD_eq fun i hi => ?_
  have hbit := reservedBit_false hm (i := i)
  have hcode := code_getLsbD h (i - 24)
  clear h hm
  simp only [encodeZ, Format.reservedMask, BitVec.getLsbD_append] at hbit ⊢
  interval_cases i <;> simp_all

theorem encodeN4_of_fields {w : Word} {o : Opcode} (h : opcField w = o.code)
    (hm : w &&& Format.n4.reservedMask = 0) : encodeN4 o (field4 w) = w := by
  refine BitVec.eq_of_getLsbD_eq fun i hi => ?_
  have hbit := reservedBit_false hm (i := i)
  have hcode := code_getLsbD h (i - 24)
  clear h hm
  simp only [field4, encodeN4, Format.reservedMask, BitVec.getLsbD_append] at hbit ⊢
  interval_cases i <;> simp_all

theorem encodeB8_of_fields {w : Word} {o : Opcode} (h : opcField w = o.code)
    (hm : w &&& Format.b8.reservedMask = 0) : encodeB8 o (field8 w) = w := by
  refine BitVec.eq_of_getLsbD_eq fun i hi => ?_
  have hbit := reservedBit_false hm (i := i)
  have hcode := code_getLsbD h (i - 24)
  clear h hm
  simp only [field8, encodeB8, Format.reservedMask, BitVec.getLsbD_append] at hbit ⊢
  interval_cases i <;> simp_all

theorem encodeT12_of_fields {w : Word} {o : Opcode} (h : opcField w = o.code)
    (hm : w &&& Format.t12.reservedMask = 0) : encodeT12 o (fieldT w) = w := by
  refine BitVec.eq_of_getLsbD_eq fun i hi => ?_
  have hbit := reservedBit_false hm (i := i)
  have hcode := code_getLsbD h (i - 24)
  clear h hm
  simp only [fieldT, encodeT12, Format.reservedMask, BitVec.getLsbD_append] at hbit ⊢
  interval_cases i <;> simp_all

theorem encodeIS_of_fields {w : Word} {o : Opcode} (h : opcField w = o.code)
    (hm : w &&& Format.is.reservedMask = 0) : encodeIS o (fieldIdx w) (field4 w) = w := by
  refine BitVec.eq_of_getLsbD_eq fun i hi => ?_
  have hbit := reservedBit_false hm (i := i)
  have hcode := code_getLsbD h (i - 24)
  clear h hm
  simp only [fieldIdx, field4, encodeIS, Format.reservedMask, BitVec.getLsbD_append] at hbit ⊢
  interval_cases i <;> simp_all

theorem encodeA_of_fields {w : Word} {o : Opcode} (h : opcField w = o.code)
    (hm : w &&& Format.a.reservedMask = 0) : encodeA o (fieldAddr w) = w := by
  refine BitVec.eq_of_getLsbD_eq fun i hi => ?_
  have hbit := reservedBit_false hm (i := i)
  have hcode := code_getLsbD h (i - 24)
  clear h hm
  simp only [fieldAddr, encodeA, Format.reservedMask, BitVec.getLsbD_append] at hbit ⊢
  interval_cases i <;> simp_all

theorem encodeAB_of_fields {w : Word} {o : Opcode} (h : opcField w = o.code)
    (hm : w &&& Format.ab.reservedMask = 0) : encodeAB o (fieldAddr w) (field8 w) = w := by
  refine BitVec.eq_of_getLsbD_eq fun i hi => ?_
  have hbit := reservedBit_false hm (i := i)
  have hcode := code_getLsbD h (i - 24)
  clear h hm
  simp only [fieldAddr, field8, encodeAB, Format.reservedMask, BitVec.getLsbD_append] at hbit ⊢
  interval_cases i <;> simp_all

theorem encodeAN_of_fields {w : Word} {o : Opcode} (h : opcField w = o.code)
    (hm : w &&& Format.an.reservedMask = 0) : encodeAN o (fieldAddr w) (field4 w) = w := by
  refine BitVec.eq_of_getLsbD_eq fun i hi => ?_
  have hbit := reservedBit_false hm (i := i)
  have hcode := code_getLsbD h (i - 24)
  clear h hm
  simp only [fieldAddr, field4, encodeAN, Format.reservedMask, BitVec.getLsbD_append] at hbit ⊢
  interval_cases i <;> simp_all

theorem encodeC13_of_fields {w : Word} {o : Opcode} (h : opcField w = o.code)
    (hm : w &&& Format.c13.reservedMask = 0) : encodeC13 o (fieldCount w) = w := by
  refine BitVec.eq_of_getLsbD_eq fun i hi => ?_
  have hbit := reservedBit_false hm (i := i)
  have hcode := code_getLsbD h (i - 24)
  clear h hm
  simp only [fieldCount, encodeC13, Format.reservedMask, BitVec.getLsbD_append] at hbit ⊢
  interval_cases i <;> simp_all

end Sys2Proof
end

