-- ==== Sys2Proof/Laws/PerInstr.lean ====
section
/-!
SUPPORT. What holds of every command as syntax, one lemma per constructor: its word carries its opcode in bits 31:24
(30_encoding.md R71) and has no reserved bit of its format set (R72, R73).
-/

namespace Sys2Proof.Laws.OpcodeField

/-- Bits 31:24 of the command's word are its opcode. -/
def Statement (i : Instr) : Prop := opcField (encode i) = i.opcode.code

theorem nop : Statement (.nop) := (encodeZ_fields .nop).1

theorem ncEnc (v : Nibble) : Statement (.ncEnc v) := (encodeN4_fields .ncEnc _).1

theorem ncDec (t : Triple) : Statement (.ncDec t) := (encodeT12_fields .ncDec _).1

theorem keyClr : Statement (.keyClr) := (encodeZ_fields .keyClr).1

theorem keyPut (v : Byte) : Statement (.keyPut v) := (encodeB8_fields .keyPut _).1

theorem kpSetc (idx sv : Nibble) : Statement (.kpSetc idx sv) := (encodeIS_fields .kpSetc _ _).1

theorem kpBuild : Statement (.kpBuild) := (encodeZ_fields .kpBuild).1

theorem kpProbe : Statement (.kpProbe) := (encodeZ_fields .kpProbe).1

theorem kpFwd (t : Triple) : Statement (.kpFwd t) := (encodeT12_fields .kpFwd _).1

theorem kpInv (v : Nibble) : Statement (.kpInv v) := (encodeN4_fields .kpInv _).1

theorem rowLen (count : BitVec 13) : Statement (.rowLen count) := (encodeC13_fields .rowLen _).1

theorem rowWr (addr : BitVec 12) (d : Byte) : Statement (.rowWr addr d) := (encodeAB_fields .rowWr _ _).1

theorem rowRd (addr : BitVec 12) : Statement (.rowRd addr) := (encodeA_fields .rowRd _).1

theorem codeWr (addr : BitVec 12) (d : Nibble) : Statement (.codeWr addr d) := (encodeAN_fields .codeWr _ _).1

theorem codeRd (addr : BitVec 12) : Statement (.codeRd addr) := (encodeA_fields .codeRd _).1

theorem ppEmbed (count : BitVec 13) : Statement (.ppEmbed count) := (encodeC13_fields .ppEmbed _).1

theorem ppExtract (count : BitVec 13) : Statement (.ppExtract count) := (encodeC13_fields .ppExtract _).1

theorem xfEnc (v : Byte) : Statement (.xfEnc v) := (encodeB8_fields .xfEnc _).1

theorem xfDec (v : Nibble) : Statement (.xfDec v) := (encodeN4_fields .xfDec _).1

theorem regRd (v : Nibble) : Statement (.regRd v) := (encodeN4_fields .regRd _).1

theorem statClr : Statement (.statClr) := (encodeZ_fields .statClr).1

end Sys2Proof.Laws.OpcodeField

namespace Sys2Proof.Laws.NoReservedBit

/-- No reserved bit of the command's format is set in its word. -/
def Statement (i : Instr) : Prop := encode i &&& i.opcode.format.reservedMask = 0

theorem nop : Statement (.nop) := (encodeZ_fields .nop).2

theorem ncEnc (v : Nibble) : Statement (.ncEnc v) := (encodeN4_fields .ncEnc _).2.1

theorem ncDec (t : Triple) : Statement (.ncDec t) := (encodeT12_fields .ncDec _).2.1

theorem keyClr : Statement (.keyClr) := (encodeZ_fields .keyClr).2

theorem keyPut (v : Byte) : Statement (.keyPut v) := (encodeB8_fields .keyPut _).2.1

theorem kpSetc (idx sv : Nibble) : Statement (.kpSetc idx sv) := (encodeIS_fields .kpSetc _ _).2.1

theorem kpBuild : Statement (.kpBuild) := (encodeZ_fields .kpBuild).2

theorem kpProbe : Statement (.kpProbe) := (encodeZ_fields .kpProbe).2

theorem kpFwd (t : Triple) : Statement (.kpFwd t) := (encodeT12_fields .kpFwd _).2.1

theorem kpInv (v : Nibble) : Statement (.kpInv v) := (encodeN4_fields .kpInv _).2.1

theorem rowLen (count : BitVec 13) : Statement (.rowLen count) := (encodeC13_fields .rowLen _).2.1

theorem rowWr (addr : BitVec 12) (d : Byte) : Statement (.rowWr addr d) := (encodeAB_fields .rowWr _ _).2.1

theorem rowRd (addr : BitVec 12) : Statement (.rowRd addr) := (encodeA_fields .rowRd _).2.1

theorem codeWr (addr : BitVec 12) (d : Nibble) : Statement (.codeWr addr d) := (encodeAN_fields .codeWr _ _).2.1

theorem codeRd (addr : BitVec 12) : Statement (.codeRd addr) := (encodeA_fields .codeRd _).2.1

theorem ppEmbed (count : BitVec 13) : Statement (.ppEmbed count) := (encodeC13_fields .ppEmbed _).2.1

theorem ppExtract (count : BitVec 13) : Statement (.ppExtract count) := (encodeC13_fields .ppExtract _).2.1

theorem xfEnc (v : Byte) : Statement (.xfEnc v) := (encodeB8_fields .xfEnc _).2.1

theorem xfDec (v : Nibble) : Statement (.xfDec v) := (encodeN4_fields .xfDec _).2.1

theorem regRd (v : Nibble) : Statement (.regRd v) := (encodeN4_fields .regRd _).2.1

theorem statClr : Statement (.statClr) := (encodeZ_fields .statClr).2

end Sys2Proof.Laws.NoReservedBit
end

