-- ==== Sys2Proof/Laws/Step.lean ====
section
/-!
SUPPORT. The step that a decoded command or an undecodable word makes (30_encoding.md R78), and a run step by step.
-/

namespace Sys2Proof.Machine

variable {s : State} {w : Word} {rest : List HostEvent}

/-- A step on a command word. -/
theorem step_command (h : s.inputs = .command w :: rest) : step s = runCommand w { s with inputs := rest } := by
  simp [step, runPort, h, runEvent]

theorem runCommand_ok {i : Instr} (h : decode w = .ok i) : runCommand w s = exec i s := by
  simp [runCommand, h]

theorem runCommand_error {e : DecodeError} (h : decode w = .error e) :
    runCommand w s = raise (Cause.ofDecodeError e) s := by
  simp [runCommand, h]

/-- A command word is run, or raises its decode error. -/
theorem runCommand_cases (w : Word) (s : State) :
    (∃ i, decode w = .ok i ∧ runCommand w s = exec i s) ∨ ∃ c, runCommand w s = raise c s := by
  cases h : decode w with
  | ok i => exact .inl ⟨i, rfl, runCommand_ok h⟩
  | error e => exact .inr ⟨_, runCommand_error h⟩

/-- A run that makes one step goes on from the state the step gave. -/
theorem run_succ (M : Host.Core) (k : Nat) {a b : M.State} (h : M.step a = .next b) : M.run (k + 1) a = M.run k b := by
  rw [Host.Core.run, h]

theorem core_run_succ (k : Nat) {t : State} (h : step s = .next t) : core.run (k + 1) s = core.run k t :=
  run_succ core k h

end Sys2Proof.Machine
end

