-- ==== Sys2Proof/Tests/Slice0.lean ====
section
/-!
SUPPORT. Small tests of the model and witnesses of the statements' hypotheses. A test's expected value comes from the
spec: its comment names the rule or the vector of 95_test_vectors.md.
-/

open Sys2Proof Sys2Proof.Machine Sys2Proof.Safety Sys2Proof.Statements

namespace Sys2Proof.Tests

/-! ## Helpers -/

/-- `CAND` of KP-4. -/
def kp4Cand : Nibbles16 := #v[14, 14, 15, 15, 0, 3, 3, 3, 7, 15, 1, 2, 9, 9, 8, 0]

/-- `SLOT` of KP-4. -/
def kp4Slot : Nibbles16 := #v[14, 15, 0, 1, 2, 3, 4, 5, 7, 6, 8, 9, 10, 11, 12, 13]

/-- `SLOT` of KP-1 and `CAND` of a permutation kept. -/
def identity16 : Nibbles16 := #v[0, 1, 2, 3, 4, 5, 6, 7, 8, 9, 10, 11, 12, 13, 14, 15]

/-- The cover row of PP-2. -/
def row6 : Memory Byte := [(0, 0xA4), (1, 0x37), (2, 0xFF), (3, 0x00), (4, 0x5E), (5, 0x81)]

/-- The codes of PP-2. -/
def codes3 : Memory Nibble := [(0, 0xB), (1, 2), (2, 7)]

/-- A block of small sizes with a table, a full key, a row, codes, an error behind it and a saturated count. -/
def demo : State :=
  { err := true, ptValid := true, cause := 5, degcnt := 0xFFFF, keylen := 2, rowlen := 6
    slot := kp4Slot, cand := kp4Cand, rowbuf := row6, codebuf := codes3, keybuf := [(0, 0x20), (1, 0x21)]
    params := { rowMax := 8, codeMax := 4, keyMax := 2 }, epoch := 1, inputs := []
    responses := [0x00000A61, 0x80050000, 0x40000000] }

/-- KP-1: the table after KP.PROBE from reset. -/
def kp1 : State := { State.reset with slot := identity16, ptValid := true }

/-- The host does just this. -/
def doing (e : HostEvent) (s : State) : State := { s with inputs := [e] }

/-- The host issues just this word. -/
def issuing (w : Word) (s : State) : State := doing (.command w) s

/-- The state after one command word. -/
def after (w : Word) (s : State) : Option State :=
  match step (issuing w s) with
  | .next t => some t
  | _ => none

/-- The response to one command word. -/
def response (w : Word) (s : State) : Option Word := (after w s).map fun t => t.responses.headD 0

/-! ## WellFormed: each check refuses an ill-formed line (R83) -/

theorem test_wf_too_few_operands : assemble { op := .ncEnc, operands := [] } = .error .operandCount := by decide
theorem test_wf_too_many_operands : assemble { op := .nop, operands := [0] } = .error .operandCount := by decide
theorem test_wf_n4_too_wide : assemble { op := .ncEnc, operands := [16] } = .error (.operandTooWide 0) := by decide
theorem test_wf_b8_too_wide : assemble { op := .keyPut, operands := [0x100] } = .error (.operandTooWide 0) := by decide
theorem test_wf_t12_too_wide : assemble { op := .kpFwd, operands := [0x1000] } = .error (.operandTooWide 0) := by decide
theorem test_wf_is_too_wide : assemble { op := .kpSetc, operands := [3, 16] } = .error (.operandTooWide 1) := by decide
theorem test_wf_a_too_wide : assemble { op := .rowRd, operands := [4096] } = .error (.operandTooWide 0) := by decide
theorem test_wf_ab_too_wide : assemble { op := .rowWr, operands := [10, 256] } = .error (.operandTooWide 1) := by decide
theorem test_wf_an_too_wide : assemble { op := .codeWr, operands := [2, 16] } = .error (.operandTooWide 1) := by decide
theorem test_wf_c13_too_wide : assemble { op := .rowLen, operands := [8192] } = .error (.operandTooWide 0) := by decide
theorem test_wf_accepts : assemble { op := .ppExtract, operands := [4096] } = .ok (.ppExtract 4096) := by decide

/-- R84, with a byte of two in UTF-8. -/
theorem test_expand_keySet : (Pseudo.keySet "aé").expand.map assemble =
    [.ok .keyClr, .ok (.keyPut 0x61), .ok (.keyPut 0xC3), .ok (.keyPut 0xA9)] := by decide
theorem test_expand_rowLoad : (Pseudo.rowLoad [0xA4, 0x37]).expand.map assemble =
    [.ok (.rowWr 0 0xA4), .ok (.rowWr 1 0x37), .ok (.rowLen 2)] := by decide
theorem test_expand_codeLoad : (Pseudo.codeLoad [2, 5]).expand.map assemble =
    [.ok (.codeWr 0 2), .ok (.codeWr 1 5)] := by decide
theorem test_expand_kpSetall :
    (Pseudo.kpSetall [1, 2, 3, 4, 5, 6, 7, 8, 9, 10, 11, 12, 13, 14, 15, 0]).expand.getLast?.map assemble =
      some (.ok .kpProbe) ∧
    (Pseudo.kpSetall [1, 2, 3, 4, 5, 6, 7, 8, 9, 10, 11, 12, 13, 14, 15, 0]).expand.length = 17 := by decide

/-! ## Decoding: words written out from R71, R72, R75 -/

/-- One word of each format bit by bit, opcode first. -/
theorem test_decode_formats_bit_by_bit :
    decode 0b00111111_000000000000_0000_0000_0000 = .ok .statClr ∧
    decode 0b00010110_000000000000_0000_0000_1001 = .ok (.kpInv 9) ∧
    decode 0b00110000_000000000000_0000_0101_1100 = .ok (.xfEnc 0x5C) ∧
    decode 0b00000010_000000000000_1010_0110_0001 = .ok (.ncDec 0xA61) ∧
    decode 0b00010010_000000000000_0000_0011_1111 = .ok (.kpSetc 3 15) ∧
    decode 0b00100010_000000001010_0000_0000_0000 = .ok (.rowRd 10) ∧
    decode 0b00100001_000000001010_0000_1010_0111 = .ok (.rowWr 10 0xA7) ∧
    decode 0b00100011_000000000010_0000_0000_1011 = .ok (.codeWr 2 0xB) ∧
    decode 0b00100110_000000000001_0000_0000_0000 = .ok (.ppExtract 4096) := by decide
theorem test_decode_nc : decode 0x0100000F = .ok (.ncEnc 15) ∧ decode 0x02000C27 = .ok (.ncDec 0xC27) := by decide
theorem test_decode_key : decode 0x10000000 = .ok .keyClr ∧ decode 0x110000FF = .ok (.keyPut 0xFF) := by decide
theorem test_decode_kp_build : decode 0x120000F0 = .ok (.kpSetc 15 0) ∧ decode 0x13000000 = .ok .kpBuild ∧
    decode 0x14000000 = .ok .kpProbe := by decide
theorem test_decode_kp_lookup : decode 0x15000A61 = .ok (.kpFwd 0xA61) ∧ decode 0x16000004 = .ok (.kpInv 4) := by decide
theorem test_decode_row : decode 0x20001001 = .ok (.rowLen 4097) ∧ decode 0x21008011 = .ok (.rowWr 8 0x11) ∧
    decode 0x22FFF000 = .ok (.rowRd 4095) := by decide
theorem test_decode_code : decode 0x23004001 = .ok (.codeWr 4 1) ∧ decode 0x24002000 = .ok (.codeRd 2) := by decide
theorem test_decode_pp : decode 0x25000003 = .ok (.ppEmbed 3) ∧ decode 0x26000004 = .ok (.ppExtract 4) := by decide
theorem test_decode_xf : decode 0x3000005C = .ok (.xfEnc 0x5C) ∧ decode 0x31000009 = .ok (.xfDec 9) := by decide
theorem test_decode_control : decode 0x00000000 = .ok .nop ∧ decode 0x3E00000D = .ok (.regRd 13) ∧
    decode 0x3F000000 = .ok .statClr := by decide
/-- EN-5, EN-7, EN-11, CT-9, PP-19. -/
theorem test_decode_reserved : decode 0x2100A1A7 = .error .reserved ∧ decode 0x26002000 = .error .reserved ∧
    decode 0x3F000001 = .error .reserved ∧ decode 0x3E000010 = .error .reserved ∧
    decode 0x230020FB = .error .reserved := by decide
/-- EN-8, EN-9, EN-10. -/
theorem test_decode_illegal : decode 0x03000000 = .error .illegalOpcode ∧ decode 0xFF000000 = .error .illegalOpcode ∧
    decode 0x03FFFFFF = .error .illegalOpcode := by decide
/-- R75 spells the mnemonics; no two opcodes share a code or a name. -/
theorem test_opcodes_distinct :
    Opcode.all.length = 21 ∧ (Opcode.all.map Opcode.code).Nodup ∧ (Opcode.all.map Opcode.mnemonic).Nodup := by decide

/-! ## The source's algorithm behind the NC table -/

/-- 95_test_vectors.md section 1.1. -/
theorem test_naming_of_nibble_5 : NoteNaming.encodeNibble 5 = 0xA61 ∧ NoteNaming.decodeTriple 0xA61 = some 5 := by decide

/-! ## One command -/

/-- CT-1, CT-2. -/
theorem test_nop : response 0x00000000 demo = some 0x00000000 ∧ response 0x00000001 demo = some 0x80020000 := by decide
/-- NC-1. -/
theorem test_ncEnc : response 0x01000000 demo = some 0x00000C27 ∧ response 0x0100000F demo = some 0x00000E51 := by decide
/-- NC-1, NC-2. -/
theorem test_ncDec : response 0x02000946 demo = some 0x00000006 ∧ response 0x02000A62 demo = some 0x40000000 ∧
    response 0x02000C28 demo = some 0x40000000 := by decide
/-- NC-3. -/
theorem test_ncDec_count : (after 0x02000000 { demo with degcnt := 0xFFFE }).map (·.degcnt) = some 0xFFFF ∧
    (after 0x02000000 demo).map (·.degcnt) = some 0xFFFF := by decide
/-- KP-8j. -/
theorem test_keyClr : (after 0x10000000 demo).map (fun t => (t.keylen, t.ptValid, t.slot)) =
    some (0, false, kp4Slot) := by decide
/-- R141's example. -/
theorem test_keyPut : (after 0x11000020 State.reset).map (fun t => (t.keylen, t.keybuf)) =
    some (1, [(0, 0x20)]) := by decide
/-- KP-8k. -/
theorem test_keyPut_full : response 0x11000041 demo = some 0x80040000 := by decide
/-- EN-2; R145: the table stays. -/
theorem test_kpSetc : (after 0x1200003F kp1).map (fun t => (entry t.cand 3, t.slot, t.ptValid)) =
    some (15, identity16, true) := by decide
/-- R150: the response and the valid table, whatever the hash. -/
theorem test_kpBuild : (after 0x13000000 { State.reset with err := true }).map
    (fun t => (t.responses, t.ptValid, t.keylen)) = some ([0x00000000], true, 0) := by decide
/-- KP-4. -/
theorem test_kpProbe : (after 0x14000000 { State.reset with cand := kp4Cand }).map (fun t => (t.slot, t.ptValid)) =
    some (kp4Slot, true) := by decide
/-- KP-5. -/
theorem test_kpProbe_wrap : (after 0x14000000
      { State.reset with cand := #v[5, 5, 5, 5, 5, 5, 5, 5, 4, 4, 4, 4, 4, 4, 4, 4] }).map (·.slot) =
    some #v[5, 6, 7, 8, 9, 10, 11, 12, 4, 13, 14, 15, 0, 1, 2, 3] := by decide
/-- KP-7. -/
theorem test_kpFwd : response 0x15000C45 demo = some 0x00000007 ∧ response 0x15000C61 demo = some 0x00000006 ∧
    response 0x15000A62 demo = some 0x40000000 := by decide
/-- KP-8a. -/
theorem test_kpFwd_notBuilt : response 0x15000A61 State.reset = some 0x80050000 := by decide
/-- KP-7. -/
theorem test_kpInv : response 0x16000000 demo = some 0x00000981 ∧ response 0x1600000F demo = some 0x00000951 := by decide
/-- KP-8b. -/
theorem test_kpInv_notBuilt : response 0x16000004 State.reset = some 0x80050000 := by decide
/-- PP-10, PP-11. -/
theorem test_rowLen : (after 0x20001000 State.reset).map (·.rowlen) = some 4096 ∧
    response 0x20001001 State.reset = some 0x80030000 := by decide
/-- PP-13, PP-12. -/
theorem test_rowWr : (after 0x21007011 demo).map (·.rowbuf) = some (row6 ++ [(7, 0x11)]) ∧
    response 0x21008011 demo = some 0x80030000 := by decide
/-- R177 on PP-2's row; PP-14. -/
theorem test_rowRd : response 0x22002000 demo = some 0x000000FF ∧ response 0x2200A001 demo = some 0x80020000 ∧
    response 0x22008000 demo = some 0x80030000 := by decide
/-- PP-18, PP-17. -/
theorem test_codeWr : (after 0x2300200B demo).map (·.codebuf) = some [(0, 0xB), (1, 2), (2, 0xB)] ∧
    response 0x23004001 demo = some 0x80030000 := by decide
/-- R179 on PP-2's codes. -/
theorem test_codeRd : response 0x24000000 demo = some 0x0000000B ∧ response 0x24004000 demo = some 0x80030000 := by decide
/-- PP-2. -/
theorem test_ppEmbed : response 0x25000003 demo = some 0x00000006 ∧ (after 0x25000003 demo).map (·.rowbuf) =
    some [(0, 0xA6), (1, 0x34), (2, 0xFC), (3, 0x01), (4, 0x5D), (5, 0x80)] := by decide
/-- PP-4: an odd row; PP-15. -/
theorem test_ppEmbed_odd : (after 0x25000003 { demo with rowlen := 5 }).map (·.rowbuf) =
    some [(0, 0xA6), (1, 0x34), (2, 0xFC), (3, 0x01), (4, 0x5D), (5, 0x81)] ∧
    response 0x25000005 demo = some 0x80030000 := by decide
/-- PP-3 over other codes. -/
theorem test_ppExtract : (after 0x26000003 { demo with
      rowbuf := [(0, 0xA6), (1, 0x34), (2, 0xFC), (3, 0x01), (4, 0x5D), (5, 0x80)], codebuf := [] }).map
        (fun t => (t.codebuf, t.responses.headD 0)) = some (codes3, 0x00000003) := by decide
/-- PP-5: the partner of the last sample is missing. -/
theorem test_ppExtract_odd : (after 0x26000003 { demo with
      rowbuf := [(0, 0xA6), (1, 0x34), (2, 0xFC), (3, 0x01), (4, 0x5D)], codebuf := [(2, 7)], rowlen := 5 }).map
        (fun t => (t.codebuf, t.responses.headD 0)) = some (codes3, 0x00000002) := by decide
/-- XF-1. -/
theorem test_xfEnc : response 0x3000005C demo = some 0x00000002 ∧ response 0x300000FF demo = some 0x00000009 ∧
    response 0x3000005C State.reset = some 0x80050000 := by decide
/-- XF-2. -/
theorem test_xfDec : response 0x31000009 demo = some 0x000000F0 ∧ response 0x31000002 kp1 = some 0x00000010 ∧
    response 0x31000002 State.reset = some 0x80050000 := by decide
/-- KP-6 and R222. -/
theorem test_regRd : response 0x3E000000 demo = some 0x00000003 ∧ response 0x3E000005 demo = some 0x000010FE ∧
    response 0x3E00000C demo = some 0x00000899 ∧ response 0x3E00000D demo = some 0x80030000 := by decide
/-- CT-7; R224: the table stays. -/
theorem test_statClr : (after 0x3F000000 demo).map (fun t => (t.err, t.cause, t.degcnt, t.ptValid)) =
    some (false, 0, 0, true) := by decide
/-- ER-3, ER-2. -/
theorem test_latest_cause : (after 0x40000000 demo).map (fun t => (t.err, t.cause)) = some (true, 1) ∧
    (after 0x02000000 demo).map (fun t => (t.err, t.cause)) = some (true, 5) := by decide
/-- R270, R271. -/
theorem test_reset : step (doing .reset demo) =
    .next { State.reset with params := demo.params, epoch := 2, responses := demo.responses } := by rfl
/-- U3. -/
theorem test_overlapping : step (doing (.overlapping 0) demo) = .refused .overlappingCommand := by rfl
/-- The host's probe of a row: the word is fetched and run from reset. -/
theorem test_withFetchWord : decodeTableWord 32 0x26001000 = some (.ppExtract 4096) ∧
    decodeTableWord 32 0x26002000 = none ∧
    (match step (State.reset.withFetchWord 32 0x26001000) with
      | .next t => t.responses
      | _ => []) = [0x00000000] := by decide

/-! ## Witnesses: concrete states and operands that meet the hypotheses of each statement, clause by clause -/

/-- Both clauses of `RunsAs`: a word with one reserved bit set, and one with none and every operand bit set. -/
abbrev RunsAsMet (opc : BitVec 8) (mask bad good : Word) : Prop :=
  (issuing bad demo).inputs = .command bad :: [] ∧ bad.extractLsb' 24 8 = opc ∧ bad &&& mask ≠ 0 ∧
  (issuing good demo).inputs = .command good :: [] ∧ good.extractLsb' 24 8 = opc ∧ good &&& mask = 0

theorem kp4Slot_bijective : Bijective kp4Slot := ⟨by decide, by decide⟩

theorem demo_inv : BlockInv demo where
  sizes := by decide
  rowCanon := by decide
  codeCanon := by decide
  keyCanon := by decide
  rowWithin := by unfold Within; decide
  codeWithin := by unfold Within; decide
  keyWithin := by unfold Within; decide
  causeLegal := by decide
  errCause := by decide
  keylenLegal := by decide
  rowlenLegal := by decide
  keyWritten := by
    intro a ha
    have h : a < 2 := ha
    obtain rfl | rfl : a = 0 ∨ a = 1 := by omega
    · exact ⟨_, rfl⟩
    · exact ⟨_, rfl⟩
  tableLegal := fun _ => kp4Slot_bijective
  answered := by
    intro r hr
    have h : r = 0x00000A61 ∨ r = 0x80050000 ∨ r = 0x40000000 := by simpa [demo] using hr
    obtain rfl | rfl | rfl := h
    · exact .inl ⟨0x0A61, by decide⟩
    · exact .inr (.inr ⟨.notBuilt, by decide⟩)
    · exact .inr (.inl (by decide))

/-- The invariant does not speak of what the host has yet to do. -/
theorem doing_inv (e : HostEvent) : BlockInv (doing e demo) :=
  { demo_inv with }

theorem witness_EncodeOfDecodeIsTheWord : decode 0x26001000 = .ok (.ppExtract 4096) := by decide

/-- The first and the last opcode of each of R76's five ranges. -/
theorem witness_UnallocatedOpcodesRaiseIllegalOpcode :
    ([0x03000000, 0x0F000000, 0x17000000, 0x1F000000, 0x27000000, 0x2F000000, 0x32000000, 0x3D000000, 0x40000000,
      0xFFFFFFFF] : List Word).all (fun w =>
        decide ((issuing w demo).inputs = .command w :: []) &&
        (let op := (w.extractLsb' 24 8).toNat
         decide ((0x03 ≤ op ∧ op ≤ 0x0F) ∨ (0x17 ≤ op ∧ op ≤ 0x1F) ∨ (0x27 ≤ op ∧ op ≤ 0x2F) ∨
           (0x32 ≤ op ∧ op ≤ 0x3D) ∨ 0x40 ≤ op))) = true := by decide

/-- An opcode of no row; C13 with its lowest reserved bit set; C13 with every operand bit set and no reserved one. -/
theorem witness_ReservedBitsAreCheckedAfterTheOpcode :
    ((issuing 0x03FFFFFF demo).inputs = .command 0x03FFFFFF :: [] ∧
      reservedMasks.all (fun row => decide (row.1 ≠ (0x03FFFFFF : Word).extractLsb' 24 8)) = true) ∧
    ((0x20 : BitVec 8), (0x00FFE000 : Word)) ∈ reservedMasks ∧ RunsAsMet 0x20 0x00FFE000 0x20002000 0x20001FFF :=
  ⟨⟨rfl, by decide⟩, by decide, by decide⟩

theorem witness_StepRunsTheDecodedCommand :
    ((issuing 0x3F000000 demo).inputs = .command 0x3F000000 :: [] ∧ decode 0x3F000000 = .ok .statClr) ∧
    demo.inputs = [] ∧ decodeTableWord 32 0x26001000 = some (.ppExtract 4096) := by decide

theorem witness_ResetOfARunningBlock : (doing .reset demo).inputs = .reset :: [] := rfl

theorem witness_ResetDuringACommandHasOneOfTwoOutcomes :
    BlockInv (doing (.resetDuring 0x11000041) demo) ∧
    (doing (.resetDuring 0x11000041) demo).inputs = .resetDuring 0x11000041 :: [] := ⟨doing_inv _, rfl⟩

theorem witness_OverlappingCommandIsRefused :
    (doing (.overlapping 0x01000005) demo).inputs = .overlapping 0x01000005 :: [] := rfl

theorem witness_EveryStepKeepsTheInvariant :
    BlockInv (issuing 0x25000003 demo) ∧ ∃ t, step (issuing 0x25000003 demo) = .next t := ⟨doing_inv _, _, rfl⟩

theorem witness_NoRunOfACarefulHostStops :
    BlockInv (issuing 0x25000003 demo) ∧ KeepsHandshake (issuing 0x25000003 demo) :=
  ⟨doing_inv _, by intro w hw; simp [issuing, doing] at hw⟩

theorem witness_EveryCommandProducesOneLegalResponse :
    BlockInv (issuing 0xFFFFFFFF demo) ∧ (issuing 0xFFFFFFFF demo).inputs = .command 0xFFFFFFFF :: [] :=
  ⟨doing_inv _, rfl⟩

theorem witness_NcEncAnswersTheForwardTable : RunsAsMet 0x01 0x00FFFFF0 0x01000010 0x0100000F := by decide

theorem witness_NcDecInvertsTheTableOrDegrades : RunsAsMet 0x02 0x00FFF000 0x02001A61 0x02000FFF ∧
    ((0x946 : Triple), (6 : Nibble)) ∈ canon ∧ ((0xF51 : Triple), (13 : Nibble)) ∈ canon ∧
    canon.all (fun p => decide (p.1 ≠ 0x945)) = true ∧ canon.all (fun p => decide (p.1 ≠ 0xF52)) = true := by decide

theorem witness_NcEncGivesCanonicalCodes : ∃ t, exec (.ncEnc 15) demo = .next t := ⟨_, rfl⟩

theorem witness_KeyClrEmptiesTheKey : RunsAsMet 0x10 0x00FFFFFF 0x10000001 0x10000000 := by decide

/-- A full key, and a key with room for just one more byte. -/
theorem witness_KeyPutAppendsAByte : RunsAsMet 0x11 0x00FFFF00 0x11000100 0x110000FF ∧
    demo.keylen.toNat = demo.params.keyMax ∧
    (let s := { demo with keylen := 1 }; s.keylen.toNat < s.params.keyMax ∧ s.params.keyMax ≤ 65535) :=
  ⟨by decide, by decide, by decide, Nat.le_of_ble_eq_true rfl⟩

theorem witness_KpSetcWritesOneCandidate : RunsAsMet 0x12 0x00FFFF00 0x12000100 0x120000FF := by decide

theorem witness_KpBuildHashesTheKeyAndProbes : RunsAsMet 0x13 0x00FFFFFF 0x13800000 0x13000000 ∧
    demo.keylen.toNat ≤ demo.params.keyMax := by decide

theorem witness_KpProbeAssignsFirstFreeSlots : RunsAsMet 0x14 0x00FFFFFF 0x14000001 0x14000000 := by decide

theorem witness_EveryBuiltTableIsABijection : demo.keylen.toNat ≤ demo.params.keyMax := by decide

theorem witness_ProbingEqualOrDistinctCandidates :
    (∀ i, entry State.reset.cand i = 0) ∧
    ∀ i j, entry { demo with cand := identity16 }.cand i = entry { demo with cand := identity16 }.cand j → i = j := by
  decide

theorem witness_KpFwdLooksUpTheSlot : RunsAsMet 0x15 0x00FFF000 0x15001A61 0x15000FFF ∧
    State.reset.ptValid = false ∧ demo.ptValid = true ∧ (0xA62 : Triple) ∉ evidence := by decide

/-- The third state has a table that is no bijection, as no run has. -/
theorem witness_KpInvLooksUpTheTuple : RunsAsMet 0x16 0x00FFFFF0 0x16000010 0x1600000F ∧
    State.reset.ptValid = false ∧ (demo.ptValid = true ∧ entry demo.slot 1 = 15) ∧
    (let s := { State.reset with ptValid := true }; s.ptValid = true ∧ ∀ i, entry s.slot i ≠ 15) :=
  ⟨by decide, rfl, by decide, rfl, by decide⟩

theorem witness_KpInvNeverDegrades : BlockInv demo ∧ demo.ptValid = true := ⟨demo_inv, rfl⟩

theorem witness_KpFwdAndKpInvAreInverse :
    let u : State := { State.reset with slot := kp4Slot, ptValid := true }
    BlockInv demo ∧ demo.ptValid = true ∧ u.ptValid = true ∧ u.slot = demo.slot := ⟨demo_inv, rfl, rfl, rfl⟩

theorem witness_TheTableIsUsedOnlyOnceBuilt : State.reset.ptValid = false ∧
    (∃ t, exec .kpProbe State.reset = .next t ∧ t.ptValid = true) ∧
    demo.ptValid = true ∧ ∃ t, exec .keyClr demo = .next t ∧ t.ptValid = false :=
  ⟨rfl, ⟨_, rfl, rfl⟩, rfl, _, rfl, rfl⟩

theorem witness_RowLenSetsTheRowLength : RunsAsMet 0x20 0x00FFE000 0x20002000 0x20001FFF ∧
    demo.params.rowMax < (9 : BitVec 13).toNat ∧ (8 : BitVec 13).toNat ≤ demo.params.rowMax := by decide

theorem witness_RowWrWritesOneSample : RunsAsMet 0x21 0x00000F00 0x2100A1A7 0x21FFF0FF ∧
    demo.params.rowMax ≤ (8 : BitVec 12).toNat ∧ (7 : BitVec 12).toNat < demo.params.rowMax := by decide

theorem witness_RowRdReadsOneSample : RunsAsMet 0x22 0x00000FFF 0x22000001 0x22FFF000 ∧
    demo.params.rowMax ≤ (8 : BitVec 12).toNat ∧
    ((5 : BitVec 12).toNat < demo.params.rowMax ∧ demo.rowbuf.read (5 : BitVec 12).toNat = some 0x81) ∧
    ((7 : BitVec 12).toNat < demo.params.rowMax ∧ demo.rowbuf.read (7 : BitVec 12).toNat = none) := by decide

theorem witness_CodeWrWritesOneCode : RunsAsMet 0x23 0x00000FF0 0x230020FB 0x23FFF00F ∧
    demo.params.codeMax ≤ (4 : BitVec 12).toNat ∧ (3 : BitVec 12).toNat < demo.params.codeMax := by decide

theorem witness_CodeRdReadsOneCode : RunsAsMet 0x24 0x00000FFF 0x24000800 0x24FFF000 ∧
    demo.params.codeMax ≤ (4 : BitVec 12).toNat ∧
    ((2 : BitVec 12).toNat < demo.params.codeMax ∧ demo.codebuf.read (2 : BitVec 12).toNat = some 7) ∧
    ((3 : BitVec 12).toNat < demo.params.codeMax ∧ demo.codebuf.read (3 : BitVec 12).toNat = none) := by decide

/-- All codes into a whole row: the last entry written and the first one left; a count too large. -/
theorem witness_PpEmbedStoresTheFragments : RunsAsMet 0x25 0x00FFE000 0x25002000 0x25001FFF ∧
    demo.params.codeMax < (5 : BitVec 13).toNat ∧
    (let s := { demo with rowlen := 8 }
     (4 : BitVec 13).toNat ≤ s.params.codeMax ∧ s.rowlen.toNat ≤ s.params.rowMax ∧
      7 < min (2 * (4 : BitVec 13).toNat) s.rowlen.toNat ∧ min (2 * (4 : BitVec 13).toNat) s.rowlen.toNat ≤ 8) := by
  decide

theorem witness_PpEmbedKeepsTheUpperSixBits : (∃ t, exec (.ppEmbed 3) { demo with rowlen := 5 } = .next t) ∧
    min (2 * (3 : BitVec 13).toNat) { demo with rowlen := 5 }.rowlen.toNat ≤ 5 := ⟨⟨_, rfl⟩, by decide⟩

theorem witness_PpExtractRecombinesTheFragments : RunsAsMet 0x26 0x00FFE000 0x26002000 0x26001FFF ∧
    demo.params.codeMax < (5 : BitVec 13).toNat ∧
    (let s := { demo with rowlen := 7 }
     (4 : BitVec 13).toNat ≤ s.params.codeMax ∧ s.rowlen.toNat ≤ s.params.rowMax ∧
      2 < min (4 : BitVec 13).toNat (s.rowlen.toNat / 2) ∧ min (4 : BitVec 13).toNat (s.rowlen.toNat / 2) ≤ 3) := by
  decide

/-- The second state is what is left after the embedding and an error. -/
theorem witness_ExtractAfterEmbedGivesTheCodesBack :
    (3 : BitVec 13).toNat ≤ demo.params.codeMax ∧ demo.rowlen.toNat ≤ demo.params.rowMax ∧
    ∃ t, exec (.ppEmbed 3) demo = .next t ∧
      let u := { t with codebuf := [], cause := 3 }
      u.rowbuf = t.rowbuf ∧ u.rowlen = demo.rowlen ∧ u.params = demo.params ∧ u.epoch = demo.epoch ∧
      2 < min (3 : BitVec 13).toNat (demo.rowlen.toNat / 2) :=
  ⟨by decide, by decide, _, rfl, rfl, rfl, rfl, rfl, by decide⟩

theorem witness_EmbeddingIntoOneSample :
    let s := { demo with rowlen := 1 }
    s.rowlen = 1 ∧ 1 ≤ (1 : BitVec 13).toNat ∧ (1 : BitVec 13).toNat ≤ s.params.codeMax ∧ 1 ≤ s.params.rowMax := by
  decide

theorem witness_XfEncMapsTheTopNibble : RunsAsMet 0x30 0x00FFFF00 0x30000100 0x300000FF ∧
    State.reset.ptValid = false ∧ demo.ptValid = true := by decide

theorem witness_XfDecRebuildsTheSample : RunsAsMet 0x31 0x00FFFFF0 0x31000010 0x3100000F ∧
    State.reset.ptValid = false ∧ demo.ptValid = true ∧ Bijective demo.slot :=
  ⟨by decide, rfl, rfl, kp4Slot_bijective⟩

theorem witness_XfEncIsNcEncThenKpFwd : demo.ptValid = true := rfl

theorem witness_XfDecIsKpInvThenNcDec : BlockInv demo ∧ demo.ptValid = true := ⟨demo_inv, rfl⟩

theorem witness_XfDecOfXfEncKeepsTheTopNibble :
    let u : State := { State.reset with slot := kp4Slot, ptValid := true }
    BlockInv demo ∧ demo.ptValid = true ∧ u.ptValid = true ∧ u.slot = demo.slot := ⟨demo_inv, rfl, rfl, rfl⟩

theorem witness_NopOnlyAnswers : RunsAsMet 0x00 0x00FFFFFF 0x00000001 0x00000000 := by decide

/-- Selector 13 is the first without a view; selectors 0 and 12 have one. -/
theorem witness_RegRdGivesTheRegisterViews : RunsAsMet 0x3E 0x00FFFFF0 0x3E000010 0x3E00000F ∧
    12 < (13 : Nibble).toNat ∧ (List.replicate 13 (0 : BitVec 16))[(12 : Nibble).toNat]? = some 0 ∧
    (List.replicate 13 (0 : BitVec 16))[(0 : Nibble).toNat]? = some 0 := by decide

theorem witness_StatClrClearsTheStatus : RunsAsMet 0x3F 0x00FFFFFF 0x3F000001 0x3F000000 := by decide

/-- KEY.PUT on a full key. -/
theorem witness_AnErrorChangesOnlyErrAndCause : (issuing 0x11000041 demo).inputs = .command 0x11000041 :: [] ∧
    ∃ t, step (issuing 0x11000041 demo) = .next t ∧ Answers (issuing 0x11000041 demo) t 0b10 :=
  ⟨rfl, _, rfl, _, rfl, by decide⟩

/-- A degraded NC.DEC, and a STAT.CLR. -/
theorem witness_DegradedResultsAreCounted :
    ((issuing 0x02000A62 demo).inputs = .command 0x02000A62 :: [] ∧
      ∃ t, step (issuing 0x02000A62 demo) = .next t ∧ Answers (issuing 0x02000A62 demo) t 0b01) ∧
    (issuing 0x3F000000 demo).inputs = .command 0x3F000000 :: [] ∧
      ∃ t, step (issuing 0x3F000000 demo) = .next t ∧ Answers (issuing 0x3F000000 demo) t 0b00 :=
  ⟨⟨rfl, _, rfl, _, rfl, by decide⟩, rfl, _, rfl, _, rfl, by decide⟩

/-- An illegal opcode, a command that is OK, and STAT.CLR. -/
theorem witness_ErrIsStickyAndCauseIsTheLatest :
    ((issuing 0x40000000 demo).inputs = .command 0x40000000 :: [] ∧
      ∃ t, step (issuing 0x40000000 demo) = .next t ∧ Answers (issuing 0x40000000 demo) t 0b10) ∧
    ((issuing 0x00000000 demo).inputs = .command 0x00000000 :: [] ∧ (0x00000000 : Word) ≠ 0x3F000000 ∧
      ∃ t, step (issuing 0x00000000 demo) = .next t ∧ Answers (issuing 0x00000000 demo) t 0b00) ∧
    (issuing 0x3F000000 demo).inputs = .command 0x3F000000 :: [] ∧ ∃ t, step (issuing 0x3F000000 demo) = .next t :=
  ⟨⟨rfl, _, rfl, _, rfl, by decide⟩, ⟨rfl, by decide, _, rfl, _, rfl, by decide⟩, rfl, _, rfl⟩

/-- The first and the last of the opcodes, each with a reserved bit set. -/
theorem witness_EightCommandsRaiseNothingButReserved :
    ((issuing 0x00000001 demo).inputs = .command 0x00000001 :: [] ∧
      (0x00000001 : Word).extractLsb' 24 8 ∈ ([0x00, 0x01, 0x02, 0x10, 0x12, 0x13, 0x14, 0x3F] : List (BitVec 8)) ∧
      ∃ t, step (issuing 0x00000001 demo) = .next t ∧ Answers (issuing 0x00000001 demo) t 0b10) ∧
    (issuing 0x3F000001 demo).inputs = .command 0x3F000001 :: [] ∧
      (0x3F000001 : Word).extractLsb' 24 8 ∈ ([0x00, 0x01, 0x02, 0x10, 0x12, 0x13, 0x14, 0x3F] : List (BitVec 8)) ∧
      ∃ t, step (issuing 0x3F000001 demo) = .next t ∧ Answers (issuing 0x3F000001 demo) t 0b10 :=
  ⟨⟨rfl, by decide, _, rfl, _, rfl, by decide⟩, rfl, by decide, _, rfl, _, rfl, by decide⟩

theorem witness_OnlyTheListedWritersWrite : ∃ t, exec (.ppEmbed 3) demo = .next t ∧ t.rowbuf ≠ demo.rowbuf :=
  ⟨_, rfl, by decide⟩

theorem witness_NoCommandReturnsAKeyByte : ∃ t, exec .kpBuild demo = .next t := ⟨_, rfl⟩

theorem witness_KpBuildReadsOnlyWrittenBytes : BlockInv demo := demo_inv

/-- The second state has the same key in a block of other sizes, with other candidates, table and rows. -/
theorem witness_RebuildingGivesTheSameTable :
    let u : State := { State.reset with keylen := 2, keybuf := demo.keybuf, epoch := demo.epoch }
    demo.keylen.toNat ≤ demo.params.keyMax ∧ u.keylen.toNat ≤ u.params.keyMax ∧ keyBytes u = keyBytes demo :=
  ⟨by decide, Nat.le_of_ble_eq_true rfl, rfl⟩

/-- A buffer of bytes and one of codes. -/
theorem witness_BuffersThatReadAlikeAreEqual :
    (Memory.wf row6 = true ∧ ∀ a, Memory.read row6 a = Memory.read row6 a) ∧
    Memory.wf codes3 = true ∧ ∀ a, Memory.read codes3 a = Memory.read codes3 a :=
  ⟨⟨by decide, fun _ => rfl⟩, by decide, fun _ => rfl⟩

end Sys2Proof.Tests
end

section
/-!
SUPPORT. What a command does to the block before it answers OK, command by command. `exec_ending` says what becomes of
the status registers; the effects here say what becomes of every other field.
-/

namespace Sys2Proof.Machine

variable {s t u : State} {i : Instr} {w : Word}

/-- Every entry of a constant array is the constant. -/
theorem entry_replicate {α : Type} (x : α) (i : Nibble) : entry (Vector.replicate 16 x) i = x := by
  simp [entry]

/-- The causes a command can raise are 1 to 5 (60_exceptions.md R240). -/
theorem Cause.code_legal (c : Cause) : c.code.toNat ≤ 5 ∧ c.code ≠ 0 := by
  cases c <;> decide

/-- What a command does to the block before it answers OK, with the bounds its own rule has checked by then. -/
inductive Effect (s : State) : Instr → State → Prop where
  | unchanged (i : Instr) : Effect s i s
  | keyClr : Effect s .keyClr (s.setKeylen 0)
  | keyPut (v : Byte) (room : s.keylen.toNat < s.params.keyMax) :
      Effect s (.keyPut v) ((s.writeKey s.keylen.toNat v).setKeylen (s.keylen + 1))
  | kpSetc (idx sv : Nibble) : Effect s (.kpSetc idx sv) (s.setCand (s.cand.set idx.toNat sv idx.isLt))
  | kpBuild : Effect s .kpBuild ((s.setCand (candidatesOf s.key)).setTable (probe (candidatesOf s.key)))
  | kpProbe : Effect s .kpProbe (s.setTable (probe s.cand))
  | rowLen (count : BitVec 13) (fits : count.toNat ≤ s.params.rowMax) :
      Effect s (.rowLen count) (s.setRowlen count)
  | rowWr (addr : BitVec 12) (d : Byte) (fits : addr.toNat < s.params.rowMax) :
      Effect s (.rowWr addr d) (s.writeRow addr.toNat d)
  | codeWr (addr : BitVec 12) (d : Nibble) (fits : addr.toNat < s.params.codeMax) :
      Effect s (.codeWr addr d) (s.writeCode addr.toNat d)
  | ppEmbed (count : BitVec 13) (fits : embedLength s count ≤ s.params.rowMax) :
      Effect s (.ppEmbed count) (embedLoop (embedLength s count) s)
  | ppExtract (count : BitVec 13) (fits : count.toNat ≤ s.params.codeMax) :
      Effect s (.ppExtract count) (extractLoop (extractLength s count) s)
  | statClr : Effect s .statClr s.clearStatus

/-- The outcomes of a command's own rule, the OK one with its effect. -/
inductive Outcomes (s : State) (i : Instr) : Result → Prop where
  | raised (c : Cause) : Outcomes s i (raise c s)
  | degraded : Outcomes s i (degrade s)
  | ok (r : BitVec 16) {u : State} (effect : Effect s i u) : Outcomes s i (respondOk r u)
  | faulted (f : Fault) : Outcomes s i (.fault f)

/-- A command that checks a condition first has the outcomes of both branches. -/
theorem Outcomes.ite {p : Prop} [Decidable p] {a b : Result} (hp : p → Outcomes s i a)
    (hn : ¬ p → Outcomes s i b) :
    Outcomes s i (if p then a else b) :=
  iteInduction hp hn

/-- A command that needs a valid table raises NOT_BUILT without one. -/
theorem Outcomes.needsTable {a : Result} (h : Outcomes s i a) :
    Outcomes s i (if s.ptValid then a else raise .notBuilt s) :=
  .ite (fun _ => h) fun _ => .raised _

/-- The outcomes of every command. -/
theorem exec_outcomes (i : Instr) (s : State) : Outcomes s i (exec i s) := by
  have keep (r : BitVec 16) : Outcomes s i (respondOk r s) := .ok r (.unchanged i)
  cases i with
  | nop => exact keep _
  | ncEnc v => exact keep _
  | ncDec x =>
    simp only [exec, execNcDec]
    split
    · exact keep _
    · exact .degraded
  | keyClr => exact .ok _ .keyClr
  | keyPut v =>
    refine .ite (fun _ => .raised _) fun notFull => .ite (fun _ => .faulted _) fun inside => .ok _ (.keyPut v ?_)
    omega
  | kpSetc idx sv => exact .ok _ (.kpSetc idx sv)
  | kpBuild => exact .ite (fun _ => .faulted _) fun _ => .ok _ .kpBuild
  | kpProbe => exact .ok _ .kpProbe
  | kpFwd x =>
    refine .needsTable ?_
    split
    · exact keep _
    · exact .degraded
  | kpInv v =>
    refine .needsTable ?_
    split
    · exact keep _
    · exact .degraded
  | rowLen count => exact .ite (fun _ => .raised _) fun h => .ok _ (.rowLen count (not_lt.1 h))
  | rowWr addr d => exact .ite (fun _ => .raised _) fun h => .ok _ (.rowWr addr d (not_le.1 h))
  | rowRd addr => exact .ite (fun _ => .raised _) fun _ => keep _
  | codeWr addr d => exact .ite (fun _ => .raised _) fun h => .ok _ (.codeWr addr d (not_le.1 h))
  | codeRd addr => exact .ite (fun _ => .raised _) fun _ => keep _
  | ppEmbed count =>
    exact .ite (fun _ => .raised _) fun _ => .ite (fun _ => .faulted _) fun h => .ok _ (.ppEmbed count (not_lt.1 h))
  | ppExtract count =>
    exact .ite (fun _ => .raised _) fun h => .ite (fun _ => .faulted _) fun _ => .ok _ (.ppExtract count (not_lt.1 h))
  | xfEnc v => exact .needsTable (keep _)
  | xfDec v =>
    refine .needsTable ?_
    split
    · exact keep _
    · exact .faulted _
  | regRd v =>
    simp only [exec, execRegRd]
    split
    · exact keep _
    · exact .raised _
  | statClr => exact .ok _ .statClr

/-- The next states of a command. -/
theorem exec_next_cases (h : exec i s = .next t) :
    (∃ c, t = (s.latch c).answer (errorWord c)) ∨ t = s.countDegraded.answer degradedWord ∨
      ∃ r u, Effect s i u ∧ t = u.answer (okWord r) := by
  have outcomes := h ▸ exec_outcomes i s
  generalize ho : (.next t : Result) = o at outcomes
  cases outcomes with
  | raised c => exact .inl ⟨c, raise_next.1 ho.symm⟩
  | degraded => exact .inr (.inl (degrade_next.1 ho.symm))
  | ok r effect => exact .inr (.inr ⟨r, _, effect, respondOk_next.1 ho.symm⟩)
  | faulted f => cases ho

/-- A reset during a command finds the command wholly performed or not at all (U4). -/
theorem runResetDuring_next_cases (h : runResetDuring w s = .next t) :
    t = s.acceptReset ∨ ∃ u, runCommand w s = .next u ∧ t = u.acceptReset := by
  unfold runResetDuring at h
  split at h
  · cases run : runCommand w s with
    | next u => exact .inr ⟨u, rfl, by simpa [run, eq_comm] using h⟩
    | fault r => simp [run] at h
    | refused r => simp [run] at h
  · exact .inl (by simpa [eq_comm] using h)

end Sys2Proof.Machine
end

section
/-!
SUPPORT. Every step keeps `BlockInv` (10_state.md R22, R24, R28; 20_memory.md R50, R56): one lemma for each way a
command ends, one for each effect, then the port.
-/

namespace Sys2Proof.Safety

open Sys2Proof.Machine

variable {s t u : State} {i : Instr} {w : Word}

/-- The state after reset meets the invariant whatever the sizes in range, the epoch and the host's list, and after
whatever legal responses. -/
theorem blockInv_reset_with {p : Config.Params} (sizes : p.inRange = true) (n : Nat) (inputs : List HostEvent)
    {responses : List Word} (answered : ∀ r ∈ responses, LegalResponse r) :
    BlockInv { State.reset with params := p, epoch := n, inputs := inputs, responses := responses } where
  sizes := sizes
  rowCanon := rfl
  codeCanon := rfl
  keyCanon := rfl
  rowWithin := List.forall_mem_nil _
  codeWithin := List.forall_mem_nil _
  keyWithin := List.forall_mem_nil _
  causeLegal := Nat.zero_le 5
  errCause := by simp [State.reset]
  keylenLegal := Nat.zero_le _
  rowlenLegal := Nat.zero_le _
  keyWritten := fun a ha => absurd ha (Nat.not_lt_zero a)
  tableLegal := Bool.noConfusion
  answered := answered

theorem BlockInv.acceptReset (h : BlockInv s) : BlockInv s.acceptReset :=
  blockInv_reset_with h.sizes (s.epoch + 1) s.inputs h.answered

/-! The ways a command ends. -/

theorem BlockInv.withInputs (h : BlockInv s) (inputs : List HostEvent) : BlockInv { s with inputs := inputs } :=
  { h with }

theorem BlockInv.answer (h : BlockInv s) (legal : LegalResponse w) : BlockInv (s.answer w) :=
  { h with answered := List.forall_mem_cons.2 ⟨legal, h.answered⟩ }

theorem BlockInv.countDegraded (h : BlockInv s) : BlockInv s.countDegraded :=
  { h with }

theorem BlockInv.latch (h : BlockInv s) (c : Cause) : BlockInv (s.latch c) :=
  { h with
    causeLegal := c.code_legal.1
    errCause := by simpa using c.code_legal.2 }

theorem BlockInv.clearStatus (h : BlockInv s) : BlockInv s.clearStatus :=
  { h with
    causeLegal := Nat.zero_le 5
    errCause := by simp }

/-! The effects of the commands. -/

theorem BlockInv.setCand (h : BlockInv s) (v : Nibbles16) : BlockInv (s.setCand v) :=
  { h with }

/-- The table a probing step leaves is a bijection (R28). -/
theorem BlockInv.setTable_probe (h : BlockInv s) (cand : Nibbles16) : BlockInv (s.setTable (probe cand)) :=
  { h with tableLegal := fun _ => bijective_of_injective (probe_entry_injective cand) }

theorem BlockInv.setRowlen (h : BlockInv s) {n : BitVec 13} (fits : n.toNat ≤ s.params.rowMax) :
    BlockInv (s.setRowlen n) :=
  { h with rowlenLegal := fits }

theorem BlockInv.clearKey (h : BlockInv s) : BlockInv (s.setKeylen 0) :=
  { h with
    keylenLegal := Nat.zero_le _
    keyWritten := fun a ha => absurd ha (Nat.not_lt_zero a)
    tableLegal := Bool.noConfusion }

/-- `KEY_MAX` is below the range of `KEYLEN` (00_scope.md R6), so that a key that has room counts one more byte without
wrapping. -/
theorem toNat_keylen_succ (h : BlockInv s) (room : s.keylen.toNat < s.params.keyMax) :
    (s.keylen + 1).toNat = s.keylen.toNat + 1 := by
  have sizes := h.sizes
  simp only [Config.Params.inRange, Bool.and_eq_true, decide_eq_true_eq] at sizes
  have one : (1 : BitVec 16).toNat = 1 := rfl
  rw [BitVec.toNat_add, one]
  omega

/-- A key byte appended where there is room is written, and the bytes before it stay written (R56). -/
theorem BlockInv.appendKey (h : BlockInv s) (v : Byte) (room : s.keylen.toNat < s.params.keyMax) :
    BlockInv ((s.writeKey s.keylen.toNat v).setKeylen (s.keylen + 1)) :=
  { h with
    keyCanon := Memory.wf_write _ v h.keyCanon
    keyWithin := Memory.within_write v h.keyWithin room
    keylenLegal := (toNat_keylen_succ h room).trans_le room
    keyWritten := by
      intro a ha
      simp only [State.setKeylen_keylen, toNat_keylen_succ h room] at ha
      simp only [State.setKeylen_keybuf, State.writeKey_keybuf, Memory.read_write]
      split
      · exact ⟨v, rfl⟩
      · exact h.keyWritten a (by omega)
    tableLegal := Bool.noConfusion }

/-- A state whose ROWBUF alone was written keeps the invariant when the buffer is canonical and within its size. -/
theorem BlockInv.withRowbuf (h : BlockInv s) {m : Memory Byte} (canon : m.wf = true)
    (within : Within s.params.rowMax m) : BlockInv { s with rowbuf := m } :=
  { h with rowCanon := canon, rowWithin := within }

theorem BlockInv.withCodebuf (h : BlockInv s) {m : Memory Nibble} (canon : m.wf = true)
    (within : Within s.params.codeMax m) : BlockInv { s with codebuf := m } :=
  { h with codeCanon := canon, codeWithin := within }

theorem BlockInv.embedLoop (h : BlockInv s) {n : Nat} (fits : n ≤ s.params.rowMax) : BlockInv (embedLoop n s) := by
  rw [embedLoop_frame]
  exact h.withRowbuf (embedLoop_wf n s h.rowCanon) (embedLoop_within n s h.rowWithin fits)

theorem BlockInv.extractLoop (h : BlockInv s) {n : Nat} (fits : n ≤ s.params.codeMax) :
    BlockInv (extractLoop n s) := by
  rw [extractLoop_frame]
  exact h.withCodebuf (extractLoop_wf n s h.codeCanon) (extractLoop_within n s h.codeWithin fits)

theorem BlockInv.effect (h : BlockInv s) (effect : Effect s i u) : BlockInv u := by
  cases effect with
  | unchanged => exact h
  | keyClr => exact h.clearKey
  | keyPut v room => exact h.appendKey v room
  | kpSetc => exact h.setCand _
  | kpBuild => exact (h.setCand _).setTable_probe _
  | kpProbe => exact h.setTable_probe _
  | rowLen count fits => exact h.setRowlen fits
  | rowWr addr d fits =>
    exact h.withRowbuf (Memory.wf_write _ d h.rowCanon) (Memory.within_write d h.rowWithin fits)
  | codeWr addr d fits =>
    exact h.withCodebuf (Memory.wf_write _ d h.codeCanon) (Memory.within_write d h.codeWithin fits)
  | ppEmbed count fits => exact h.embedLoop fits
  | ppExtract count fits => exact h.extractLoop ((Nat.min_le_left ..).trans fits)
  | statClr => exact h.clearStatus

/-! The port. -/

theorem BlockInv.raise (h : BlockInv s) (c : Cause) : BlockInv ((s.latch c).answer (errorWord c)) :=
  (h.latch c).answer (.inr (.inr ⟨c, rfl⟩))

theorem BlockInv.exec (h : BlockInv s) (next : exec i s = .next t) : BlockInv t := by
  obtain ⟨c, rfl⟩ | rfl | ⟨r, u, effect, rfl⟩ := exec_next_cases next
  · exact h.raise c
  · exact h.countDegraded.answer (.inr (.inl rfl))
  · exact (h.effect effect).answer (.inl ⟨r, rfl⟩)

theorem BlockInv.runCommand (h : BlockInv s) (next : runCommand w s = .next t) : BlockInv t := by
  obtain ⟨i, -, run⟩ | ⟨c, run⟩ := runCommand_cases w s
  · exact h.exec (run ▸ next)
  · rw [run, raise_next] at next
    exact next ▸ h.raise c

theorem BlockInv.runResetDuring (h : BlockInv s) (next : runResetDuring w s = .next t) : BlockInv t := by
  obtain rfl | ⟨u, run, rfl⟩ := runResetDuring_next_cases next
  · exact h.acceptReset
  · exact (h.runCommand run).acceptReset

theorem BlockInv.runEvent {e : HostEvent} (h : BlockInv s) (next : runEvent e s = .next t) : BlockInv t := by
  cases e with
  | command w => exact h.runCommand next
  | reset => cases next; exact h.acceptReset
  | resetDuring w => exact h.runResetDuring next
  | overlapping w => cases next

theorem BlockInv.step (h : BlockInv s) (next : step s = .next t) : BlockInv t := by
  unfold Machine.step runPort at next
  split at next
  · cases next; exact h
  · exact (h.withInputs _).runEvent next

end Sys2Proof.Safety
end

section
/-! The statements about the registers: the reset state and the invariant. -/

namespace Sys2Proof.Proofs.Invariant

open Sys2Proof.Machine Sys2Proof.Safety

/-- Settles O13: by the event the step takes, the way its command ends and the effect of the command. -/
theorem everyStepKeepsTheInvariant : Obligations.EveryStepKeepsTheInvariant :=
  fun _ _ inv next => inv.step next

/-- Settles O12: the reset state is a block of R6's default sizes that has answered nothing. -/
theorem invariantHoldsAtReset : Obligations.InvariantHoldsAtReset :=
  blockInv_reset_with (p := Config.defaultParams) (by decide) 0 [] (List.forall_mem_nil _)

/-- Settles O8: the registers are R35's values, and no entry is listed in an empty buffer. -/
theorem resetLeavesTheSpecifiedState : Obligations.ResetLeavesTheSpecifiedState :=
  ⟨rfl, rfl, rfl, rfl, rfl, rfl, fun i => ⟨entry_replicate 0 i, entry_replicate 0 i⟩,
    fun _ => ⟨rfl, rfl, rfl, rfl, rfl, rfl⟩⟩

end Sys2Proof.Proofs.Invariant
end

section
/-!
SUPPORT. A step on a command word and the status it leaves: `ERR`, `CAUSE`, `DEGCNT` and the response word
(10_state.md R23 to R25, 60_exceptions.md R243, R244).
-/

namespace Sys2Proof.Machine

open Sys2Proof.Statements

variable {s t u : State} {w : Word} {rest : List HostEvent}

/-! The fields of the three response words. -/

@[simp] theorem okWord_status (r : BitVec 16) : (okWord r).extractLsb' 30 2 = 0b00 := (responseWord_fields ..).1

@[simp] theorem degradedWord_status : degradedWord.extractLsb' 30 2 = 0b01 := (responseWord_fields ..).1

@[simp] theorem errorWord_status (c : Cause) : (errorWord c).extractLsb' 30 2 = 0b10 := (responseWord_fields ..).1

@[simp] theorem errorWord_cause (c : Cause) : (errorWord c).extractLsb' 16 4 = c.code :=
  (responseWord_fields ..).2.2.1

/-- The status a command answers with is that of the one word it produces. -/
theorem answers_answer {r : Word} {st : BitVec 2} (h : u.responses = s.responses) :
    Answers s (u.answer r) st ↔ r.extractLsb' 30 2 = st := by
  simp [Answers, h]

/-- The count of R25, as the statements write it. -/
theorem answer_countDegraded (s : State) : s.countDegraded.answer degradedWord = afterDegraded s := by
  have count : degcntNext s.degcnt = if s.degcnt = 0xFFFF then 0xFFFF else s.degcnt + 1 := by
    unfold degcntNext
    split <;> simp_all
  have word : degradedWord = 0x40000000 := by decide
  simp only [State.answer, State.countDegraded, afterDegraded, count, word]

/-! The words of the commands that R244 and R224 name. -/

/-- A command's opcode is the top byte of its word (R71). -/
theorem opcField_of_decode {i : Instr} (h : decode w = .ok i) : opcField w = i.opcode.code := by
  obtain ⟨o, code, -, rfl⟩ := decode_eq_ok.1 h
  rw [← code]
  cases o <;> rfl

theorem opcode_of_canDegrade {i : Instr} (h : decode w = .ok i) (degrades : CanDegrade i) :
    w.extractLsb' 24 8 ∈ ([0x02, 0x15, 0x16] : List (BitVec 8)) := by
  have opc : w.extractLsb' 24 8 = i.opcode.code := opcField_of_decode h
  rw [opc]
  cases i with
  | ncDec | kpFwd | kpInv => simp [Instr.opcode, Opcode.code]
  | _ => cases degrades

/-- STAT.CLR is one word. -/
theorem decode_eq_statClr : decode w = .ok .statClr ↔ w = 0x3F000000 := by
  refine ⟨fun h => ?_, fun h => h ▸ by decide⟩
  obtain ⟨o, code, mask, fields⟩ := decode_eq_ok.1 h
  cases o <;> cases fields
  exact (encodeZ_of_fields code.symm mask).symm

/-- The ways a command word ends: those of `exec_ending`, with a decode error among the errors, and with STAT.CLR told
apart by its word. -/
inductive CommandEnding (w : Word) (s t : State) : Prop where
  | raised (c : Cause) (notClr : w ≠ 0x3F000000) (ht : t = (s.latch c).answer (errorWord c))
  | degraded (opcode : w.extractLsb' 24 8 ∈ ([0x02, 0x15, 0x16] : List (BitVec 8)))
      (notClr : w ≠ 0x3F000000) (ht : t = s.countDegraded.answer degradedWord)
  | ok (r : BitVec 16) (u : State) (same : SameStatus s u) (notClr : w ≠ 0x3F000000) (ht : t = u.answer (okWord r))
  | cleared (clr : w = 0x3F000000) (ht : t = s.clearStatus.answer (okWord 0))

theorem runCommand_ending (h : runCommand w s = .next t) : CommandEnding w s t := by
  by_cases clr : w = 0x3F000000
  · rw [runCommand_ok (decode_eq_statClr.2 clr)] at h
    exact .cleared clr (respondOk_next.1 h)
  obtain ⟨i, word, run⟩ | ⟨c, run⟩ := runCommand_cases w s
  · rw [run] at h
    cases exec_ending i s with
    | raised c e => exact .raised c clr (raise_next.1 (e ▸ h))
    | degraded e hi => exact .degraded (opcode_of_canDegrade word hi) clr (degrade_next.1 (e ▸ h))
    | ok r u e same => exact .ok r u same clr (respondOk_next.1 (e ▸ h))
    | cleared e hi => exact absurd (decode_eq_statClr.1 (hi ▸ word)) clr
    | faulted f e => cases e ▸ h
  · exact .raised c clr (raise_next.1 (run ▸ h))

theorem step_command_ending (hin : s.inputs = .command w :: rest) (h : step s = .next t) :
    CommandEnding w { s with inputs := rest } t :=
  runCommand_ending (step_command hin ▸ h)

end Sys2Proof.Machine
end

section
/-! The statements about the status registers. -/

namespace Sys2Proof.Proofs.Status

open Sys2Proof.Machine Sys2Proof.Statements

/-- Settles O53: by the way the command ends; only one of the four ends answers DEGRADED. -/
theorem degradedResultsAreCounted : Obligations.DegradedResultsAreCounted := by
  refine ⟨fun s t w rest hin next => ?_, fun s => rfl⟩
  cases step_command_ending hin next with
  | raised c notClr ht =>
    have status : Answers s t 0b01 ↔ _ := ht ▸ answers_answer rfl
    rw [status, errorWord_status, if_neg notClr, ht]
    exact ⟨fun h => absurd h (by decide), fun _ => rfl⟩
  | degraded opcode notClr ht =>
    have status : Answers s t 0b01 ↔ _ := ht ▸ answers_answer rfl
    rw [status, degradedWord_status, ht, answer_countDegraded]
    exact ⟨fun _ => ⟨rfl, opcode⟩, fun h => absurd rfl h⟩
  | ok r u same notClr ht =>
    obtain ⟨-, -, degcnt, -, -, -, responses⟩ := same
    have status : Answers s t 0b01 ↔ _ := ht ▸ answers_answer responses
    rw [status, okWord_status, if_neg notClr, ht]
    exact ⟨fun h => absurd h (by decide), fun _ => degcnt⟩
  | cleared clr ht =>
    have status : Answers s t 0b01 ↔ _ := ht ▸ answers_answer rfl
    rw [status, okWord_status, if_pos clr, ht]
    exact ⟨fun h => absurd h (by decide), fun _ => rfl⟩

/-- Settles O54: by the way the command ends; only one of the four ends answers ERROR. -/
theorem errIsStickyAndCauseIsTheLatest : Obligations.ErrIsStickyAndCauseIsTheLatest := by
  refine ⟨fun s t w rest hin next => ?_, fun s => ⟨rfl, rfl⟩⟩
  cases step_command_ending hin next with
  | raised c notClr ht =>
    have status : Answers s t 0b10 ↔ _ := ht ▸ answers_answer rfl
    rw [status, errorWord_status, ht]
    exact ⟨fun _ => ⟨rfl, (errorWord_cause c).symm, c.code_legal.2⟩, fun h => absurd rfl h,
      fun clr => absurd clr notClr⟩
  | degraded opcode notClr ht =>
    have status : Answers s t 0b10 ↔ _ := ht ▸ answers_answer rfl
    rw [status, degradedWord_status, ht]
    exact ⟨fun h => absurd h (by decide), fun _ _ => ⟨rfl, rfl⟩, fun clr => absurd clr notClr⟩
  | ok r u same notClr ht =>
    obtain ⟨err, cause, -, -, -, -, responses⟩ := same
    have status : Answers s t 0b10 ↔ _ := ht ▸ answers_answer responses
    rw [status, okWord_status, ht]
    exact ⟨fun h => absurd h (by decide), fun _ _ => ⟨err, cause⟩, fun clr => absurd clr notClr⟩
  | cleared clr ht =>
    have status : Answers s t 0b10 ↔ _ := ht ▸ answers_answer rfl
    rw [status, okWord_status, ht]
    exact ⟨fun h => absurd h (by decide), fun _ notClr => absurd clr notClr, fun _ => ⟨rfl, rfl⟩⟩

end Sys2Proof.Proofs.Status
end

section
/-! The statement about the writers of the registers and buffers (10_state.md R22, 20_memory.md R50). -/

namespace Sys2Proof.Proofs.Writers

open Sys2Proof.Machine

/-- Settles O56: an error and a fallback write none of these fields, and the effect before an OK response writes
what is its command's own. -/
theorem onlyTheListedWritersWrite : Obligations.OnlyTheListedWritersWrite := by
  intro i s t next
  obtain ⟨c, rfl⟩ | rfl | ⟨r, u, effect, rfl⟩ := exec_next_cases next
  · simp
  · simp
  · cases effect with
    | ppEmbed count =>
      rw [embedLoop_frame]
      simp
    | ppExtract count =>
      rw [extractLoop_frame]
      simp
    | _ => simp

end Sys2Proof.Proofs.Writers
end

section
/-!
SUPPORT. What the buffers hold, read back: a canonical buffer is determined by its entries, and a key that KEY.PUT has
written does not depend on the free values of unwritten entries (20_memory.md R50, R56).
-/

namespace Sys2Proof.Machine

variable {α : Type} {s : State}

theorem Memory.read_cons_self (b : Nat) (x : α) (m : Memory α) : Memory.read ((b, x) :: m) b = some x :=
  if_pos rfl

/-- A canonical buffer lists no entry below its first. -/
theorem Memory.head_le_of_read {a b : Nat} {x y : α} {m : Memory α} (h : Memory.wf ((b, y) :: m) = true)
    (read : Memory.read ((b, y) :: m) a = some x) : b ≤ a := by
  by_contra below
  have above : ∀ d ∈ (b, y) :: m, a < d.1 :=
    List.forall_mem_cons.2 ⟨not_le.1 below, fun d hd => (not_le.1 below).trans ((Memory.wf_cons.1 h).1 d hd)⟩
  rw [Memory.read_eq_none_of_lt above] at read
  cases read

/-- Canonical buffers are determined by what they hold at every index. -/
theorem Memory.ext_read {m n : Memory α} (hm : m.wf = true) (hn : n.wf = true) (alike : ∀ a, m.read a = n.read a) :
    m = n := by
  induction m generalizing n with
  | nil =>
    cases n with
    | nil => rfl
    | cons d n => cases (alike d.1).trans (Memory.read_cons_self ..)
  | cons c m ih =>
    obtain ⟨b, x⟩ := c
    cases n with
    | nil => cases (alike b).symm.trans (Memory.read_cons_self ..)
    | cons d n =>
      obtain ⟨b', y⟩ := d
      have sameIndex : b = b' := le_antisymm
        (Memory.head_le_of_read hm ((alike b').trans (Memory.read_cons_self ..)))
        (Memory.head_le_of_read hn ((alike b).symm.trans (Memory.read_cons_self ..)))
      subst sameIndex
      have sameValue : x = y := by simpa [Memory.read_cons_self] using alike b
      have sameRest : m = n := ih (Memory.wf_cons.1 hm).2 (Memory.wf_cons.1 hn).2 fun a => by
        rw [Memory.read_cons_tail hm, Memory.read_cons_tail hn, alike]
      rw [sameValue, sameRest]

/-- A written key byte reads as what was written, whatever the free values. -/
theorem State.keyEntry_of_read {a : Nat} {b : Byte} (h : s.keybuf.read a = some b) : s.keyEntry a = b := by
  rw [State.keyEntry, h, Option.getD_some]

/-- A key all of whose bytes are written is the same in every epoch. -/
theorem State.key_withEpoch (written : ∀ a, a < s.keylen.toNat → ∃ b, s.keybuf.read a = some b) (e : Nat) :
    State.key { s with epoch := e } = s.key := by
  refine List.map_congr_left fun a ha => ?_
  obtain ⟨b, read⟩ := written a (List.mem_range.1 ha)
  rw [State.keyEntry_of_read read]
  exact State.keyEntry_of_read read

/-- KP.BUILD with a legal `KEYLEN`: the candidates of the key and the table probed from them (R150). -/
theorem exec_kpBuild (legal : s.keylen.toNat ≤ s.params.keyMax) :
    exec .kpBuild s = respondOk 0 ((s.setCand (candidatesOf s.key)).setTable (probe (candidatesOf s.key))) :=
  if_neg (not_lt.2 legal)

end Sys2Proof.Machine
end

section
/-!
SUPPORT. The host sees nothing of KEYBUF but through the table (20_memory.md R52, 60_exceptions.md R250): command by
command, the responses do not depend on the buffer.
-/

namespace Sys2Proof.Machine

/-- What the host has received after a command that completes; `none` where it does not. -/
def responsesOf : Result → Option (List Word)
  | .next t => some t.responses
  | .fault _ => none
  | .refused _ => none

theorem responsesOf_eq_some {o : Result} {l : List Word} :
    responsesOf o = some l ↔ ∃ u, o = .next u ∧ u.responses = l := by
  cases o <;> simp [responsesOf]

@[simp] theorem responsesOf_respondOk (r : BitVec 16) (s : State) :
    responsesOf (respondOk r s) = some (okWord r :: s.responses) := rfl

theorem embedLoop_responses (n : Nat) (s : State) : (embedLoop n s).responses = s.responses := by
  rw [embedLoop_frame]

theorem extractLoop_responses (n : Nat) (s : State) : (extractLoop n s).responses = s.responses := by
  rw [extractLoop_frame]

/-- Commands that check the same condition first give the same responses if both branches do. -/
theorem responsesOf_ite_congr {p : Prop} [Decidable p] {a a' b b' : Result}
    (ha : responsesOf a = responsesOf a') (hb : responsesOf b = responsesOf b') :
    responsesOf (if p then a else b) = responsesOf (if p then a' else b') := by
  split
  · exact ha
  · exact hb

/-- No command's response depends on what KEYBUF holds. -/
theorem responsesOf_exec_withKeybuf (i : Instr) (s : State) (m : Memory Byte) :
    responsesOf (exec i { s with keybuf := m }) = responsesOf (exec i s) := by
  cases i with
  | nop | ncEnc | keyClr | kpSetc | kpProbe | statClr => rfl
  | ncDec x =>
    simp only [exec, execNcDec]
    cases lutDec x <;> rfl
  | keyPut v => exact responsesOf_ite_congr rfl (responsesOf_ite_congr rfl rfl)
  | kpBuild =>
    refine responsesOf_ite_congr rfl ?_
    simp
  | rowLen | rowWr | rowRd | codeWr | codeRd | xfEnc => exact responsesOf_ite_congr rfl rfl
  | kpFwd x =>
    refine responsesOf_ite_congr ?_ rfl
    cases evidIndex x <;> rfl
  | kpInv v | xfDec v =>
    refine responsesOf_ite_congr ?_ rfl
    cases indexOf s.slot v <;> rfl
  | ppEmbed count =>
    refine responsesOf_ite_congr rfl (responsesOf_ite_congr rfl ?_)
    simp [embedLoop_responses, embedLength]
  | ppExtract count =>
    refine responsesOf_ite_congr rfl (responsesOf_ite_congr rfl ?_)
    simp [extractLoop_responses, extractLength]
  | regRd v =>
    have view : regView { s with keybuf := m } v = regView s v := rfl
    simp only [exec, execRegRd, view]
    cases regView s v <;> rfl

end Sys2Proof.Machine
end

section
/-! The statements about the buffers and what is read from them (20_memory.md R50, R52, R56). -/

namespace Sys2Proof.Proofs.Buffers

open Sys2Proof.Machine

/-- Settles O57: the responses of every command are the same with another KEYBUF. -/
theorem noCommandReturnsAKeyByte : Obligations.NoCommandReturnsAKeyByte := by
  intro i s t m next
  rw [← responsesOf_eq_some, responsesOf_exec_withKeybuf, next]
  rfl

/-- Settles O58: the invariant says every byte of the key is written, so the key is the same in every epoch. -/
theorem kpBuildReadsOnlyWrittenBytes : Obligations.KpBuildReadsOnlyWrittenBytes := by
  intro s e inv
  have sameKey := State.key_withEpoch inv.keyWritten e
  refine ⟨_, _, exec_kpBuild inv.keylenLegal, exec_kpBuild (s := { s with epoch := e }) inv.keylenLegal, ?_, ?_⟩
  · simp [sameKey]
  · simp [sameKey]

/-- Settles O60: by induction on the buffers; the first entries agree, and so do the rests. -/
theorem buffersThatReadAlikeAreEqual : Obligations.BuffersThatReadAlikeAreEqual :=
  fun _ _ _ hm hn alike => Memory.ext_read hm hn alike

end Sys2Proof.Proofs.Buffers
end

section
/-!
SUPPORT. The encoder and the decoder are inverse, command by command (30_encoding.md R71 to R73, R78): the facts about
each format, read for the commands of that format.
-/

namespace Sys2Proof

variable {w : Word} {o : Opcode}

/-- A command's word carries its opcode and sets no reserved bit of its format. -/
theorem encode_opcode_and_reserved (i : Instr) :
    opcField (encode i) = i.opcode.code ∧ encode i &&& i.opcode.format.reservedMask = 0 := by
  cases i with
  | nop | keyClr | kpBuild | kpProbe | statClr => exact encodeZ_fields _
  | ncEnc v | kpInv v | xfDec v | regRd v => exact (encodeN4_fields _ v).imp_right And.left
  | keyPut v | xfEnc v => exact (encodeB8_fields _ v).imp_right And.left
  | ncDec t | kpFwd t => exact (encodeT12_fields _ t).imp_right And.left
  | kpSetc idx sv => exact (encodeIS_fields _ idx sv).imp_right And.left
  | rowRd addr | codeRd addr => exact (encodeA_fields _ addr).imp_right And.left
  | rowWr addr d => exact (encodeAB_fields _ addr d).imp_right And.left
  | codeWr addr d => exact (encodeAN_fields _ addr d).imp_right And.left
  | rowLen count | ppEmbed count | ppExtract count => exact (encodeC13_fields _ count).imp_right And.left

/-- The fields of a command's word are its operands. -/
theorem withFields_encode (i : Instr) : withFields i.opcode (encode i) = i := by
  cases i with
  | nop | keyClr | kpBuild | kpProbe | statClr => rfl
  | ncEnc | kpInv | xfDec | regRd => simp only [Instr.opcode, withFields, encode, encodeN4_fields]
  | keyPut | xfEnc => simp only [Instr.opcode, withFields, encode, encodeB8_fields]
  | ncDec | kpFwd => simp only [Instr.opcode, withFields, encode, encodeT12_fields]
  | kpSetc => simp only [Instr.opcode, withFields, encode, encodeIS_fields]
  | rowRd | codeRd => simp only [Instr.opcode, withFields, encode, encodeA_fields]
  | rowWr => simp only [Instr.opcode, withFields, encode, encodeAB_fields]
  | codeWr => simp only [Instr.opcode, withFields, encode, encodeAN_fields]
  | rowLen | ppEmbed | ppExtract => simp only [Instr.opcode, withFields, encode, encodeC13_fields]

theorem decode_encode (i : Instr) : decode (encode i) = .ok i := by
  obtain ⟨code, mask⟩ := encode_opcode_and_reserved i
  exact decode_eq_ok.2 ⟨i.opcode, code.symm, mask, withFields_encode i⟩

/-- A word with an allocated opcode and no reserved bit is the word of the command with its fields. -/
theorem encode_withFields (code : opcField w = o.code) (mask : w &&& o.format.reservedMask = 0) :
    encode (withFields o w) = w := by
  cases o with
  | nop | keyClr | kpBuild | kpProbe | statClr => exact encodeZ_of_fields code mask
  | ncEnc | kpInv | xfDec | regRd => exact encodeN4_of_fields code mask
  | keyPut | xfEnc => exact encodeB8_of_fields code mask
  | ncDec | kpFwd => exact encodeT12_of_fields code mask
  | kpSetc => exact encodeIS_of_fields code mask
  | rowRd | codeRd => exact encodeA_of_fields code mask
  | rowWr => exact encodeAB_of_fields code mask
  | codeWr => exact encodeAN_of_fields code mask
  | rowLen | ppEmbed | ppExtract => exact encodeC13_of_fields code mask

theorem encode_of_decode {i : Instr} (h : decode w = .ok i) : encode i = w := by
  obtain ⟨o, code, mask, rfl⟩ := decode_eq_ok.1 h
  exact encode_withFields code.symm mask

/-- No allocated opcode lies in one of the five ranges of R76. -/
theorem code_not_in_unallocated_ranges (o : Opcode) :
    ¬ ((0x03 ≤ o.code.toNat ∧ o.code.toNat ≤ 0x0F) ∨ (0x17 ≤ o.code.toNat ∧ o.code.toNat ≤ 0x1F) ∨
      (0x27 ≤ o.code.toNat ∧ o.code.toNat ≤ 0x2F) ∨ (0x32 ≤ o.code.toNat ∧ o.code.toNat ≤ 0x3D) ∨
      0x40 ≤ o.code.toNat) := by
  cases o <;> decide

/-- The decoder for table words is the decoder (R70). -/
theorem decodeTableWord_eq_some {nbits n : Nat} {i : Instr} :
    decodeTableWord nbits n = some i ↔ decode (BitVec.ofNat 32 (n % 2 ^ nbits)) = .ok i := by
  unfold decodeTableWord
  cases decode (BitVec.ofNat 32 (n % 2 ^ nbits)) <;> simp

end Sys2Proof
end

section
/-!
SUPPORT. The assembler (30_encoding.md R83): a line has no error exactly when its operands fit the fields of its
format one by one, and then it is the line of the command built from it.
-/

namespace Sys2Proof

variable {l : AsmLine}

/-- As many operands as the format has fields, each fitting the field beside it. -/
def OperandsFit (widths operands : List Nat) : Prop := List.Forall₂ (fun w v => v < 2 ^ w) widths operands

theorem operandsFit_iff (k : Nat) (widths operands : List Nat) :
    OperandsFit widths operands ↔ operands.length = widths.length ∧ firstTooWide k widths operands = none := by
  induction widths generalizing k operands with
  | nil => cases operands <;> simp [OperandsFit, firstTooWide]
  | cons w ws ih =>
    cases operands with
    | nil => simp [OperandsFit]
    | cons v vs =>
      have rest := ih (k + 1) vs
      unfold OperandsFit at rest ⊢
      by_cases fits : v < 2 ^ w
      · simp [firstTooWide, fits, rest]
      · simp [firstTooWide, fits]

theorem error?_eq_none : l.error? = none ↔ OperandsFit l.op.format.operandWidths l.operands := by
  rw [operandsFit_iff 0]
  by_cases count : l.operands.length = l.op.format.operandWidths.length <;> simp [AsmLine.error?, count]

theorem operandsFit_none {vs : List Nat} : OperandsFit [] vs ↔ vs = [] :=
  List.forall₂_nil_left_iff

theorem operandsFit_one {w : Nat} {vs : List Nat} : OperandsFit [w] vs ↔ ∃ x, x < 2 ^ w ∧ vs = [x] := by
  simp [OperandsFit, List.forall₂_cons_left_iff]

theorem operandsFit_two {w w' : Nat} {vs : List Nat} :
    OperandsFit [w, w'] vs ↔ ∃ x y, x < 2 ^ w ∧ y < 2 ^ w' ∧ vs = [x, y] := by
  simp [OperandsFit, List.forall₂_cons_left_iff]

/-- The operands of a command fit, for each is a field's value. -/
theorem error?_toAsm (i : Instr) : i.toAsm.error? = none := by
  rw [error?_eq_none]
  cases i with
  | nop | keyClr | kpBuild | kpProbe | statClr => exact operandsFit_none.2 rfl
  | kpSetc x y | rowWr x y | codeWr x y => exact operandsFit_two.2 ⟨_, _, x.isLt, y.isLt, rfl⟩
  | _ => exact operandsFit_one.2 ⟨_, BitVec.isLt _, rfl⟩

theorem build_toAsm (i : Instr) : i.toAsm.build = i := by
  cases i <;> simp [AsmLine.build, Instr.toAsm, Instr.opcode, Instr.operands]

/-- A line of fitting operands is the line of the command built from it: nothing is truncated. -/
theorem toAsm_build (noError : l.error? = none) : l.build.toAsm = l := by
  have fits := error?_eq_none.1 noError
  obtain ⟨op, operands⟩ := l
  cases op with
  | nop | keyClr | kpBuild | kpProbe | statClr =>
    obtain rfl := operandsFit_none.1 fits
    rfl
  | kpSetc | rowWr | codeWr =>
    obtain ⟨x, y, hx, hy, rfl⟩ := operandsFit_two.1 fits
    simpa [AsmLine.build, Instr.toAsm, Instr.opcode, Instr.operands] using And.intro hx hy
  | _ =>
    obtain ⟨x, hx, rfl⟩ := operandsFit_one.1 fits
    simpa [AsmLine.build, Instr.toAsm, Instr.opcode, Instr.operands] using hx

theorem assemble_eq_ok {i : Instr} : assemble l = .ok i ↔ l.error? = none ∧ l.build = i := by
  unfold assemble
  cases l.error? <;> simp

end Sys2Proof
end

section
/-!
SUPPORT. A command word in a state that meets the invariant: it completes, and what it answers is a response of R80
(30_encoding.md R78, R80; 60_exceptions.md R243).
-/

namespace Sys2Proof.Machine

open Sys2Proof.Safety Sys2Proof.Statements

variable {s : State} {w : Word} {rest : List HostEvent}

/-- An error as the statements write it (R243). -/
theorem raise_eq_afterError (c : Cause) (s : State) : raise c s = .next (afterError c.code s) := rfl

theorem step_decoded {i : Instr} (hin : s.inputs = .command w :: rest) (h : decode w = .ok i) :
    step s = exec i { s with inputs := rest } := by
  rw [step_command hin, runCommand_ok h]

theorem step_undecodable {e : DecodeError} (hin : s.inputs = .command w :: rest) (h : decode w = .error e) :
    step s = .next (afterError (Cause.ofDecodeError e).code { s with inputs := rest }) := by
  rw [step_command hin, runCommand_error h, raise_eq_afterError]

/-- An idle host (log 14). -/
theorem step_idle (hin : s.inputs = []) : step s = .next s := by
  simp [step, runPort, hin]

/-- The rows of R75 and R73, as the statements list them, are the opcodes with the masks of their formats. -/
theorem mem_reservedMasks {row : BitVec 8 × Word} :
    row ∈ reservedMasks ↔ ∃ o : Opcode, (o.code, o.format.reservedMask) = row := by
  have rows : reservedMasks = Opcode.all.map fun o => (o.code, o.format.reservedMask) := by decide
  simp [rows, mem_all]

/-- A command completes: it has a next state. -/
def Completes (o : Result) : Prop := ∃ t, o = .next t

theorem Completes.ite {p : Prop} [Decidable p] {a b : Result} (hp : p → Completes a) (hn : ¬ p → Completes b) :
    Completes (if p then a else b) :=
  iteInduction hp hn

/-- A command that needs a table completes if it does with a table that is a bijection (10_state.md R28). -/
theorem Completes.needsTable {a : Result} (inv : BlockInv s) (h : Bijective s.slot → Completes a) :
    Completes (if s.ptValid then a else raise .notBuilt s) :=
  .ite (fun valid => h (inv.tableLegal valid)) fun _ => ⟨_, rfl⟩

/-- No command faults in a state that meets the invariant. -/
theorem exec_completes (inv : BlockInv s) (i : Instr) : Completes (exec i s) := by
  have keyFits : ¬ s.params.keyMax < s.keylen.toNat := not_lt.2 inv.keylenLegal
  have rowFits := inv.rowlenLegal
  cases i with
  | nop | ncEnc | keyClr | kpSetc | kpProbe | statClr => exact ⟨_, rfl⟩
  | ncDec x =>
    simp only [exec, execNcDec]
    cases lutDec x <;> exact ⟨_, rfl⟩
  | keyPut => exact .ite (fun _ => ⟨_, rfl⟩) fun _ => .ite (fun beyond => absurd beyond keyFits) fun _ => ⟨_, rfl⟩
  | kpBuild => exact .ite (fun beyond => absurd beyond keyFits) fun _ => ⟨_, rfl⟩
  | kpFwd x =>
    refine .needsTable inv fun _ => ?_
    cases evidIndex x <;> exact ⟨_, rfl⟩
  | kpInv v =>
    refine .needsTable inv fun _ => ?_
    cases indexOf s.slot v <;> exact ⟨_, rfl⟩
  | rowLen | rowWr | rowRd | codeWr | codeRd => exact .ite (fun _ => ⟨_, rfl⟩) fun _ => ⟨_, rfl⟩
  | ppEmbed count =>
    have fits : embedLength s count ≤ s.params.rowMax := (Nat.min_le_right ..).trans rowFits
    exact .ite (fun _ => ⟨_, rfl⟩) fun _ => .ite (fun beyond => absurd fits (not_le.2 beyond)) fun _ => ⟨_, rfl⟩
  | ppExtract count =>
    have fits : 2 * extractLength s count ≤ s.params.rowMax := by
      unfold extractLength
      omega
    exact .ite (fun _ => ⟨_, rfl⟩) fun _ => .ite (fun beyond => absurd fits (not_le.2 beyond)) fun _ => ⟨_, rfl⟩
  | xfEnc => exact .needsTable inv fun _ => ⟨_, rfl⟩
  | xfDec v =>
    refine .needsTable inv fun bijective => ?_
    obtain ⟨i, found, -⟩ := exists_indexOf_of_bijective bijective v
    rw [found]
    exact ⟨_, rfl⟩
  | regRd v =>
    simp only [exec, execRegRd]
    cases regView s v <;> exact ⟨_, rfl⟩

theorem runCommand_completes (inv : BlockInv s) (w : Word) : Completes (runCommand w s) := by
  obtain ⟨i, -, run⟩ | ⟨c, run⟩ := runCommand_cases w s
  · exact run ▸ exec_completes inv i
  · exact ⟨_, run⟩

/-- The form of a response word (R80, U10), with the cause an ERROR response carries. -/
def ResponseForm (r : Word) (cause : BitVec 4) : Prop :=
  r.extractLsb' 20 10 = 0 ∧ r.extractLsb' 30 2 ≠ 0b11 ∧
  (r.extractLsb' 30 2 ≠ 0b10 → r.extractLsb' 16 4 = 0) ∧
  (r.extractLsb' 30 2 = 0b01 → r.extractLsb' 0 16 = 0) ∧
  (r.extractLsb' 30 2 = 0b10 → r.extractLsb' 0 16 = 0 ∧ cause = r.extractLsb' 16 4 ∧
    1 ≤ (r.extractLsb' 16 4).toNat ∧ (r.extractLsb' 16 4).toNat ≤ 5)

theorem Status.bits_ne_reserved (st : Status) : st.bits ≠ 0b11 := by
  cases st <;> decide

theorem Status.bits_eq_degraded {st : Status} : st.bits = 0b01 ↔ st = .degraded := by
  cases st <;> decide

theorem Status.bits_eq_error {st : Status} : st.bits = 0b10 ↔ st = .error := by
  cases st <;> decide

/-- When a response word has the form of R80. -/
theorem responseForm_responseWord {st : Status} {c cause : BitVec 4} {r : BitVec 16} (noCause : st ≠ .error → c = 0)
    (degraded : st = .degraded → r = 0)
    (error : st = .error → r = 0 ∧ cause = c ∧ 1 ≤ c.toNat ∧ c.toNat ≤ 5) :
    ResponseForm (responseWord st c r) cause := by
  obtain ⟨status, zeros, rcause, result⟩ := responseWord_fields st c r
  rw [ResponseForm, status, zeros, rcause, result, Status.bits_eq_degraded, Ne, Ne, Status.bits_eq_error]
  exact ⟨rfl, st.bits_ne_reserved, noCause, degraded, error⟩

theorem responseForm_okWord (result : BitVec 16) (cause : BitVec 4) : ResponseForm (okWord result) cause :=
  responseForm_responseWord (fun _ => rfl) (fun h => nomatch h) fun h => nomatch h

theorem responseForm_degradedWord (cause : BitVec 4) : ResponseForm degradedWord cause :=
  responseForm_responseWord (fun _ => rfl) (fun _ => rfl) fun h => nomatch h

theorem responseForm_errorWord (c : Cause) : ResponseForm (errorWord c) c.code := by
  have legal : 1 ≤ c.code.toNat ∧ c.code.toNat ≤ 5 := by cases c <;> decide
  exact responseForm_responseWord (absurd rfl) (fun _ => rfl) fun _ => ⟨rfl, rfl, legal⟩

end Sys2Proof.Machine
end

section
/-! The statements about command words, their encoding and the step that runs them (30_encoding.md). -/

namespace Sys2Proof.Proofs.Encoding

open Sys2Proof.Machine Sys2Proof.Statements

/-- Settles O2: a command's operands fit their fields, and its word has its opcode, no reserved bit and its fields. -/
theorem decodeOfEncodeIsTheCommand : Obligations.DecodeOfEncodeIsTheCommand := by
  intro i
  have wf : i.wellFormed = true := by simp [Instr.wellFormed, AsmLine.wellFormed, error?_toAsm]
  exact ⟨wf, decode_encode i⟩

/-- Settles O3: the opcode, the zero reserved bits and the fields make up the whole word. -/
theorem encodeOfDecodeIsTheWord : Obligations.EncodeOfDecodeIsTheWord :=
  fun _ _ h => encode_of_decode h

/-- Settles O4: building a command from a line and writing a command as a line are inverse on lines without error. -/
theorem assemblingTheLineOfACommandGivesIt : Obligations.AssemblingTheLineOfACommandGivesIt := by
  intro l i
  rw [assemble_eq_ok]
  constructor
  · rintro ⟨fits, rfl⟩
    exact (toAsm_build fits).symm
  · rintro rfl
    exact ⟨error?_toAsm i, build_toAsm i⟩

/-- Settles O5: none of the 21 opcodes lies in R76's ranges. -/
theorem unallocatedOpcodesRaiseIllegalOpcode : Obligations.UnallocatedOpcodesRaiseIllegalOpcode := by
  intro s w rest hin range
  refine step_undecodable hin (decode_of_unallocated fun o code => ?_)
  exact code_not_in_unallocated_ranges o (code ▸ range)

/-- Settles O6: the rows are the opcodes with their masks, and the decoder looks for the opcode first. -/
theorem reservedBitsAreCheckedAfterTheOpcode : Obligations.ReservedBitsAreCheckedAfterTheOpcode := by
  intro s w rest hin
  refine ⟨fun noRow => step_undecodable hin (decode_of_unallocated fun o => ?_), fun row listed code => ?_⟩
  · exact noRow _ (mem_reservedMasks.2 ⟨o, rfl⟩)
  · obtain ⟨o, rfl⟩ := mem_reservedMasks.1 listed
    have decoded := decode_of_code (w := w) (o := o) code.symm
    refine ⟨fun bitSet => ?_, fun clear => ?_⟩
    · exact step_undecodable hin (decoded.trans (if_neg bitSet))
    · exact ⟨_, decoded.trans (if_pos clear), step_decoded hin (decoded.trans (if_pos clear))⟩

/-- Settles O15: the invariant excludes the faults, and each of the ways a command ends answers one word of R80. -/
theorem everyCommandProducesOneLegalResponse : Obligations.EveryCommandProducesOneLegalResponse := by
  intro s w rest inv hin
  obtain ⟨t, run⟩ := runCommand_completes (inv.withInputs rest) w
  refine ⟨t, t.responses.headD 0, (step_command hin).trans run, ?_⟩
  cases runCommand_ending run with
  | raised c _ ht => exact ht ▸ ⟨rfl, rfl, responseForm_errorWord c⟩
  | degraded _ _ ht => exact ht ▸ ⟨rfl, rfl, responseForm_degradedWord _⟩
  | ok r u same _ ht =>
    obtain ⟨-, -, -, -, -, inputs, responses⟩ := same
    exact ht ▸ ⟨congrArg _ responses, inputs, responseForm_okWord r _⟩
  | cleared _ ht => exact ht ▸ ⟨rfl, rfl, responseForm_okWord 0 _⟩

/-- Settles O1: each word is its command's encoding, and so decodes to it. -/
theorem specExampleWordsDecodeAndEncode : Obligations.SpecExampleWordsDecodeAndEncode := by
  intro p listed
  have word : encode p.2 = p.1 := by
    revert p
    decide
  exact ⟨word ▸ decode_encode p.2, word⟩

/-- Settles O7: by what the decoder answers for the word in front of the host's list. -/
theorem stepRunsTheDecodedCommand : Obligations.StepRunsTheDecodedCommand := by
  refine ⟨fun _ _ _ _ hin h => step_decoded hin h, fun _ hin => step_idle hin, fun s nbits n i h => ?_⟩
  exact step_decoded (s := s.withFetchWord nbits n) rfl (decodeTableWord_eq_some.1 h)

end Sys2Proof.Proofs.Encoding
end

section
/-!
SUPPORT. How a command word of an allocated opcode runs (30_encoding.md R78), the OK and DEGRADED responses as the
statements write them (R80, R244), and the two commands of the nibble codec (40_nibble_codec.md R106, R108).
-/

namespace Sys2Proof.Machine

open Sys2Proof.Statements

/-- Every row of R75 runs as R78 says, with the mask and the fields of its format. -/
theorem runsAs_opcode (o : Opcode) : RunsAs o.code o.format.reservedMask (withFields o) := by
  intro s w rest hin code
  have decoded := decode_of_code code
  exact ⟨fun bitSet => step_undecodable hin (decoded.trans (if_neg bitSet)),
    fun clear => step_decoded hin (decoded.trans (if_pos clear))⟩

theorem respondOk_eq_afterOk (r : BitVec 16) (s : State) : respondOk r s = .next (afterOk r s) := rfl

theorem degrade_eq_afterDegraded (s : State) : degrade s = .next (afterDegraded s) :=
  congrArg Host.Outcome.next (answer_countDegraded s)

@[simp] theorem lastResult_afterOk (r : BitVec 16) (s : State) : lastResult (afterOk r s) = r :=
  (responseWord_fields .ok 0 r).2.2.2

theorem answers_afterOk (r : BitVec 16) (s : State) : Answers s (afterOk r s) 0b00 :=
  (answers_answer rfl).2 (okWord_status r)

/-! The tables, as the statements list them. -/

theorem lutEnc_eq_forward : ∀ n : Nibble, lutEnc n = forward.getD n.toNat 0 := by decide

/-- CANON in ascending order is the evidence tuples with their nibbles (R108, R131). -/
theorem canon_eq_evid : canon = indices.map fun i => (evid i, nOfIdx i) := by decide

/-- CANON is the forward table read backwards (R108). -/
theorem mem_canon {t : Triple} {n : Nibble} : (t, n) ∈ canon ↔ lutEnc n = t := by
  simp only [canon_eq_evid, List.mem_map, mem_indices, true_and, Prod.mk.injEq, ← evid_idxOfN]
  constructor
  · rintro ⟨i, rfl, rfl⟩
    rw [idxOfN_nOfIdx]
  · rintro rfl
    exact ⟨idxOfN n, rfl, nOfIdx_idxOfN n⟩

theorem lutDec_eq_none {t : Triple} : lutDec t = none ↔ ∀ n, lutEnc n ≠ t := indexOf_eq_none

/-! The two commands. -/

theorem exec_ncEnc (v : Nibble) (s : State) : exec (.ncEnc v) s = .next (afterOk (zext16 (lutEnc v)) s) := rfl

theorem exec_ncDec_canonical (n : Nibble) (s : State) :
    exec (.ncDec (lutEnc n)) s = .next (afterOk (zext16 n) s) := by
  simp only [exec, execNcDec, lutDec_lutEnc, respondOk_eq_afterOk]

theorem exec_ncDec_noncanonical {t : Triple} (h : ∀ n, lutEnc n ≠ t) (s : State) :
    exec (.ncDec t) s = .next (afterDegraded s) := by
  simp only [exec, execNcDec, lutDec_eq_none.2 h, degrade_eq_afterDegraded]

/-! A triple in the RESULT field and as three codes (00_scope.md R11). -/

theorem extractLsb'_zext16_triple (t : Triple) : (zext16 t).extractLsb' 0 12 = t :=
  (BitVec.extractLsb'_setWidth_of_le (by decide)).trans BitVec.extractLsb'_eq_self

theorem extractLsb'_top_zext16_triple (t : Triple) : (zext16 t).extractLsb' 12 4 = 0 := by
  ext i
  simp [zext16]

/-- A triple is its three codes, first code first. -/
theorem codes_append (t : Triple) : t.extractLsb' 8 4 ++ t.extractLsb' 4 4 ++ t.extractLsb' 0 4 = t := by
  have high : t.extractLsb' 8 4 ++ t.extractLsb' 4 4 = t.extractLsb' 4 8 :=
    BitVec.extractLsb'_append_extractLsb'_eq_extractLsb' rfl
  have whole : t.extractLsb' 4 8 ++ t.extractLsb' 0 4 = t.extractLsb' 0 12 :=
    BitVec.extractLsb'_append_extractLsb'_eq_extractLsb' rfl
  rw [high, whole, BitVec.extractLsb'_eq_self]

/-- The codes of the forward table lie in the three sets of R111. -/
theorem lutEnc_codes : ∀ n : Nibble,
    (lutEnc n).extractLsb' 8 4 ∈ ([0x9, 0xA, 0xB, 0xC, 0xD, 0xE, 0xF] : List Nibble) ∧
    (lutEnc n).extractLsb' 4 4 ∈ ([2, 4, 5, 6, 7, 8] : List Nibble) ∧
    (lutEnc n).extractLsb' 0 4 ∈ ([1, 5, 6, 7] : List Nibble) := by decide

end Sys2Proof.Machine
end

section
/-!
SUPPORT. The derivation of the forward table column by column (40_nibble_codec.md R106, R107): each nibble's frequency
has a note, the note's name gives the codes, the codes spell the name back, and the note's own frequency is corrected
to the nibble's.
-/

namespace Sys2Proof.Machine.NoteNaming

open Sys2Proof.Statements

/-- The note number `m` of each nibble, the third column of R106. -/
def noteOf (n : Nibble) : Nat := [2, 19, 28, 34, 38, 41, 44, 47, 49, 51, 52, 54, 55, 57, 58, 59].getD n.toNat 0

theorem noteNumber_freqOf : ∀ n : Nibble, noteNumber (freqOf n) = noteOf n := by decide

/-- The codes of the note's name are the table's entry. -/
theorem codes_noteName_noteOf : ∀ n : Nibble,
    packThree ((replaceSharp (utf8 (noteName (noteOf n)))).map codeOf) = forward.getD n.toNat 0 := by decide

theorem encodeNibble_eq_forward (n : Nibble) : encodeNibble n = forward.getD n.toNat 0 := by
  rw [encodeNibble, noteNumber_freqOf, codes_noteName_noteOf]

/-- The table's entry spells the note's name. -/
theorem parseNote_forward : ∀ n : Nibble,
    parseNote (((codesOf (forward.getD n.toNat 0)).filterMap byteOf).map charOf) = some (noteOf n) := by decide

/-- The correction table turns the note's rounded frequency into the nibble's (R103). -/
theorem correction_noteOf : ∀ n : Nibble,
    (correction.find? fun p => p.1 == roundedFreq (noteOf n)) = some (roundedFreq (noteOf n), freqOf n) := by decide

theorem decodeTriple_forward (n : Nibble) : decodeTriple (forward.getD n.toNat 0) = some n := by
  have nibble : (freqOf n - 9) / 16 = n.toNat := by
    unfold freqOf
    omega
  simp only [decodeTriple, parseNote_forward, correction_noteOf, nibble, BitVec.ofNat_toNat, BitVec.setWidth_eq]

end Sys2Proof.Machine.NoteNaming
end

section
/-! The statements about the nibble codec (40_nibble_codec.md). -/

namespace Sys2Proof.Proofs.NibbleCodec

open Sys2Proof.Machine Sys2Proof.Statements

/-- Settles O16: the word runs as its row of R75 does, and the model's table is the one listed. -/
theorem ncEncAnswersTheForwardTable : Obligations.NcEncAnswersTheForwardTable :=
  ⟨runsAs_opcode .ncEnc, fun v s => lutEnc_eq_forward v ▸ exec_ncEnc v s⟩

/-- Settles O17: a triple is in CANON exactly when it is the forward entry of a nibble. -/
theorem ncDecInvertsTheTableOrDegrades : Obligations.NcDecInvertsTheTableOrDegrades := by
  refine ⟨runsAs_opcode .ncDec, fun p listed s => ?_, fun t s unlisted => ?_⟩
  · exact mem_canon.1 listed ▸ exec_ncDec_canonical p.2 s
  · exact exec_ncDec_noncanonical (fun n encodes => unlisted (t, n) (mem_canon.2 encodes) rfl) s

/-- Settles O18: the RESULT field holds the forward entry, which decodes to the nibble. -/
theorem ncDecOfNcEncGivesTheNibbleBack : Obligations.NcDecOfNcEncGivesTheNibbleBack := by
  intro n s
  refine ⟨_, exec_ncEnc n s, answers_afterOk _ s, ?_, ?_⟩
  · rw [lastResult_afterOk, extractLsb'_top_zext16_triple]
  · rw [lastResult_afterOk, extractLsb'_zext16_triple]
    exact exec_ncDec_canonical n _

/-- Settles O19: the codes are those of the forward entry, and the entry is in CANON. -/
theorem ncEncGivesCanonicalCodes : Obligations.NcEncGivesCanonicalCodes := by
  intro n s t next
  obtain rfl := respondOk_next.1 next
  have codes := codes_append (lutEnc n)
  refine ⟨_, _, _, ?_, ⟨n, ?_⟩, lutEnc_codes n⟩
  · rw [codes]
    exact lastResult_afterOk _ s
  · exact mem_canon.2 codes.symm

/-- Settles O20: forward and back through the note of each nibble. -/
theorem sourceAlgorithmGivesTheTable : Obligations.SourceAlgorithmGivesTheTable :=
  fun n => ⟨NoteNaming.encodeNibble_eq_forward n, NoteNaming.decodeTriple_forward n⟩

end Sys2Proof.Proofs.NibbleCodec
end

section
/-!
SUPPORT. The commands of the keyed permutation, one equation for each way each of them ends (41_keyed_permutation.md),
the table the probing step leaves (R135, R136, R152) and what becomes of `PT_VALID` (R160).
-/

namespace Sys2Proof.Machine

open Sys2Proof.Safety Sys2Proof.Statements

variable {s t : State} {i : Instr} {cand slot : Nibbles16}

/-! The tables, as the statements list them. -/

theorem evid_eq_evidence : ∀ i : Nibble, evid i = evidence.getD i.toNat 0 := by decide

theorem mem_evidence {x : Triple} : x ∈ evidence ↔ ∃ i, evid i = x := by
  have listed : evidence = indices.map evid := by decide
  simp [listed, mem_indices]

theorem evid_strictMono : ∀ i j : Nibble, i < j → evid i < evid j := by decide

theorem nOfIdx_eq_nibbleOfIndex : ∀ i : Nibble, nOfIdx i = nibbleOfIndex.getD i.toNat 0 := by decide

theorem idxOfN_eq_indexOfNibble : ∀ n : Nibble, idxOfN n = indexOfNibble.getD n.toNat 0 := by decide

/-! The probing step, as R135 says it and at its corners. -/

theorem probed_probe (cand : Nibbles16) : Probed cand (probe cand) := by
  intro i
  obtain ⟨d, moves, found, past⟩ := probe_first_free cand i
  exact ⟨d, moves, found, fun j earlier same => BitVec.ne_of_lt earlier (probe_entry_injective cand j i same), past⟩

/-- Every table the probing step leaves is a bijection (R136). -/
theorem bijective_probe (cand : Nibbles16) : Bijective (probe cand) :=
  bijective_of_injective (probe_entry_injective cand)

/-- Induction over the tuples in their fixed order. -/
theorem tuple_induction {p : Nibble → Prop} (next : ∀ i, (∀ j, j < i → p j) → p i) (i : Nibble) : p i :=
  (measure BitVec.toNat).wf.induction i next

/-- Equal candidates fill the slots in order from the candidate: a tuple that moved less than its index would be on the
slot of an earlier tuple. -/
theorem entry_of_equal_candidates (h : Probed cand slot) {c : Nibble} (equal : ∀ i, entry cand i = c) (i : Nibble) :
    entry slot i = c + i := by
  induction i using tuple_induction with
  | next i ih =>
    obtain ⟨d, moves, found, distinct, -⟩ := h i
    rw [equal] at found
    rcases moves.lt_or_eq with fewer | rfl
    · have earlier : BitVec.ofNat 4 d < i := by
        rw [BitVec.lt_def, BitVec.toNat_ofNat]
        omega
      exact absurd ((ih _ earlier).trans found.symm) (distinct _ earlier)
    · simpa using found

/-- Distinct candidates are kept: a tuple that moved would have found an earlier tuple on its candidate, which is then
that tuple's candidate too. -/
theorem entry_of_distinct_candidates (h : Probed cand slot)
    (distinct : ∀ i j, entry cand i = entry cand j → i = j) (i : Nibble) : entry slot i = entry cand i := by
  induction i using tuple_induction with
  | next i ih =>
    obtain ⟨d, -, found, -, past⟩ := h i
    cases d with
    | zero => simpa using found
    | succ d =>
      obtain ⟨j, earlier, taken⟩ := past 0 d.succ_pos
      have same : entry cand j = entry cand i := by simpa [ih j earlier] using taken
      exact absurd (distinct j i same) (BitVec.ne_of_lt earlier)

theorem entry_candidatesOf (key : List Byte) (i : Nibble) : entry (candidatesOf key) i = slotOf key (evid i) :=
  entry_map evidTable (slotOf key) i

/-! A value in the RESULT field. -/

theorem extractLsb'_zext16 {n : Nat} (fits : n ≤ 16) (v : BitVec n) : (zext16 v).extractLsb' 0 n = v :=
  (BitVec.extractLsb'_setWidth_of_le ((Nat.zero_add n).trans_le fits)).trans BitVec.extractLsb'_eq_self

/-! The key and the candidates. -/

theorem exec_keyPut_full (v : Byte) (full : s.keylen.toNat = s.params.keyMax) :
    exec (.keyPut v) s = .next (afterError 4 s) :=
  if_pos full

theorem exec_keyPut_room (v : Byte) (room : s.keylen.toNat < s.params.keyMax) :
    exec (.keyPut v) s = respondOk 0 ((s.writeKey s.keylen.toNat v).setKeylen (s.keylen + 1)) :=
  (if_neg room.ne).trans (if_neg room.not_gt)

/-! The table looked up. -/

/-- A command that needs a table raises NOT_BUILT without one (R160). -/
theorem needsTable_unbuilt {a : Result} (unbuilt : s.ptValid = false) :
    (if s.ptValid then a else raise .notBuilt s) = .next (afterError 5 s) :=
  if_neg (Bool.not_eq_true _ ▸ unbuilt)

theorem exec_kpFwd_evid (built : s.ptValid = true) (i : Nibble) :
    exec (.kpFwd (evid i)) s = .next (afterOk (zext16 (entry s.slot i)) s) := by
  simp only [exec, execKpFwd, built, if_true, evidIndex_evid, respondOk_eq_afterOk]

theorem evidIndex_eq_none {x : Triple} : evidIndex x = none ↔ x ∉ evidence := by
  rw [mem_evidence, not_exists]
  exact indexOf_eq_none

theorem exec_kpFwd_other (built : s.ptValid = true) {x : Triple} (other : x ∉ evidence) :
    exec (.kpFwd x) s = .next (afterDegraded s) := by
  simp only [exec, execKpFwd, built, if_true, evidIndex_eq_none.2 other, degrade_eq_afterDegraded]

theorem exec_kpInv_found (built : s.ptValid = true) {v i : Nibble} (found : indexOf s.slot v = some i) :
    exec (.kpInv v) s = .next (afterOk (zext16 (evid i)) s) := by
  simp only [exec, execKpInv, built, if_true, found, respondOk_eq_afterOk]

theorem exec_kpInv_absent (built : s.ptValid = true) {v : Nibble} (absent : ∀ i, entry s.slot i ≠ v) :
    exec (.kpInv v) s = .next (afterDegraded s) := by
  simp only [exec, execKpInv, built, if_true, indexOf_eq_none.2 absent, degrade_eq_afterDegraded]

/-- Over a valid table KP.INV finds the tuple of every Code4 (R158). -/
theorem exec_kpInv_of_blockInv (inv : BlockInv s) (built : s.ptValid = true) (v : Nibble) :
    ∃ i, entry s.slot i = v ∧ exec (.kpInv v) s = .next (afterOk (zext16 (evid i)) s) := by
  obtain ⟨i, found, holds⟩ := exists_indexOf_of_bijective (inv.tableLegal built) v
  exact ⟨i, holds, exec_kpInv_found built found⟩

/-- What a command makes of `PT_VALID`: it stays, a build sets it, or a key write clears it. -/
theorem exec_ptValid_cases (next : exec i s = .next t) :
    t.ptValid = s.ptValid ∨ (t.ptValid = true ∧ (i = .kpBuild ∨ i = .kpProbe)) ∨
      (t.ptValid = false ∧ (i = .keyClr ∨ ∃ v, i = .keyPut v)) := by
  obtain ⟨c, rfl⟩ | rfl | ⟨r, u, effect, rfl⟩ := exec_next_cases next
  · exact .inl rfl
  · exact .inl rfl
  · cases effect with
    | keyClr => exact .inr (.inr ⟨rfl, .inl rfl⟩)
    | keyPut v => exact .inr (.inr ⟨rfl, .inr ⟨v, rfl⟩⟩)
    | kpBuild => exact .inr (.inl ⟨rfl, .inl rfl⟩)
    | kpProbe => exact .inr (.inl ⟨rfl, .inr rfl⟩)
    | ppEmbed => exact .inl (by rw [embedLoop_frame, State.answer_ptValid])
    | ppExtract => exact .inl (by rw [extractLoop_frame, State.answer_ptValid])
    | _ => exact .inl rfl

end Sys2Proof.Machine
end

section
/-! The statements about the keyed permutation (41_keyed_permutation.md). -/

namespace Sys2Proof.Proofs.KeyedPermutation

open Sys2Proof.Machine Sys2Proof.Statements

/-- Settles O22: KEYLEN and `PT_VALID` are all that is written before the answer. -/
theorem keyClrEmptiesTheKey : Obligations.KeyClrEmptiesTheKey :=
  ⟨runsAs_opcode .keyClr, fun _ => rfl⟩

/-- Settles O23: the byte is written at KEYLEN, which does not wrap, for KEY_MAX is within its range. -/
theorem keyPutAppendsAByte : Obligations.KeyPutAppendsAByte := by
  refine ⟨runsAs_opcode .keyPut, fun v s => ⟨exec_keyPut_full v, fun room range => ?_⟩⟩
  refine ⟨_, exec_keyPut_room v room, Memory.read_write_same _ _ v,
    fun a other => Memory.read_write_other _ v other, ?_, rfl⟩
  have noWrap : s.keylen.toNat + (1#16).toNat < 2 ^ 16 := by
    rw [BitVec.toNat_ofNat]
    omega
  exact BitVec.toNat_add_of_lt noWrap

/-- Settles O24: a write to a sixteen-entry array changes one entry. -/
theorem kpSetcWritesOneCandidate : Obligations.KpSetcWritesOneCandidate := by
  refine ⟨runsAs_opcode .kpSetc, fun idx sv s => ⟨_, rfl, ?_, fun j other => ?_, rfl⟩⟩
  · exact (entry_set s.cand idx idx sv).trans (if_pos rfl)
  · exact (entry_set s.cand idx j sv).trans (if_neg other)

/-- Settles O25: the candidates are the hashes of the evidence tuples, and the table is probed from them. -/
theorem kpBuildHashesTheKeyAndProbes : Obligations.KpBuildHashesTheKeyAndProbes := by
  refine ⟨runsAs_opcode .kpBuild, fun s legal => ⟨_, exec_kpBuild legal, fun i => ?_, probed_probe _, rfl⟩⟩
  rw [← evid_eq_evidence]
  exact entry_candidatesOf s.key i

/-- Settles O26: the table KP.PROBE writes is the probing step's. -/
theorem kpProbeAssignsFirstFreeSlots : Obligations.KpProbeAssignsFirstFreeSlots :=
  ⟨runsAs_opcode .kpProbe, fun s => ⟨_, rfl, probed_probe s.cand, rfl⟩⟩

/-- Settles O27: both builders write a table of the probing step, which is a bijection. -/
theorem everyBuiltTableIsABijection : Obligations.EveryBuiltTableIsABijection :=
  fun s => ⟨⟨_, rfl, rfl, bijective_probe s.cand⟩, fun legal => ⟨_, exec_kpBuild legal, rfl, bijective_probe _⟩⟩

/-- Settles O28: by what probing says of each tuple and the tuples before it. -/
theorem probingEqualOrDistinctCandidates : Obligations.ProbingEqualOrDistinctCandidates := by
  intro s
  have probed := probed_probe s.cand
  exact ⟨_, rfl, fun _ => entry_of_equal_candidates probed, entry_of_distinct_candidates probed⟩

/-- Settles O29: with a table, the slot of the tuple's index, or the fallback where the triple has none. -/
theorem kpFwdLooksUpTheSlot : Obligations.KpFwdLooksUpTheSlot := by
  refine ⟨runsAs_opcode .kpFwd, fun s => ⟨fun unbuilt _ => needsTable_unbuilt unbuilt, fun built => ?_⟩⟩
  refine ⟨fun i => ?_, fun _ other => exec_kpFwd_other built other⟩
  rw [← evid_eq_evidence]
  exact exec_kpFwd_evid built i

/-- Settles O30: with a table, the tuple of the index the search finds, or the fallback where it finds none. -/
theorem kpInvLooksUpTheTuple : Obligations.KpInvLooksUpTheTuple := by
  refine ⟨runsAs_opcode .kpInv, fun v s => ⟨needsTable_unbuilt, fun built => ⟨fun ⟨k, holds⟩ => ?_, ?_⟩⟩⟩
  · cases search : indexOf s.slot v with
    | none => exact absurd holds (indexOf_eq_none.1 search k)
    | some i => exact ⟨i, entry_of_indexOf search, evid_eq_evidence i ▸ exec_kpInv_found built search⟩
  · exact exec_kpInv_absent built

/-- Settles O31: the invariant says the table is a bijection, in which every search succeeds. -/
theorem kpInvNeverDegrades : Obligations.KpInvNeverDegrades :=
  fun v _ inv built => exec_kpInv_of_blockInv inv built v

/-- Settles O32: the first command's RESULT field is the second one's operand, and the two tables are one bijection. -/
theorem kpFwdAndKpInvAreInverse : Obligations.KpFwdAndKpInvAreInverse := by
  intro s u inv built builtU sameTable
  refine ⟨fun i => ?_, fun c => ?_⟩
  · refine ⟨_, exec_kpFwd_evid built i, answers_afterOk _ s, ?_⟩
    rw [lastResult_afterOk, extractLsb'_zext16 (by decide), ← sameTable]
    exact exec_kpInv_found builtU (indexOf_entry (sameTable ▸ (inv.tableLegal built).injective) i)
  · obtain ⟨i, rfl, run⟩ := exec_kpInv_of_blockInv inv built c
    refine ⟨_, run, answers_afterOk _ s, ?_⟩
    rw [lastResult_afterOk, extractLsb'_zext16 (by decide), ← sameTable]
    exact exec_kpFwd_evid builtU i

/-- Settles O33: the four commands check `PT_VALID` first, and of the three things a command can make of it one sets
and one clears it. -/
theorem theTableIsUsedOnlyOnceBuilt : Obligations.TheTableIsUsedOnlyOnceBuilt := by
  refine ⟨fun s unbuilt _ _ _ => ?_, fun i s t next => ?_, rfl, fun _ => rfl⟩
  · exact ⟨needsTable_unbuilt unbuilt, needsTable_unbuilt unbuilt, needsTable_unbuilt unbuilt,
      needsTable_unbuilt unbuilt⟩
  · obtain stays | ⟨sets, builder⟩ | ⟨clears, writer⟩ := exec_ptValid_cases next
    · simp +contextual [stays]
    · simp [sets, builder]
    · simp [clears, writer]

/-- Settles O59: the candidates are a function of the key bytes, and KP.BUILD writes neither KEYBUF nor KEYLEN. -/
theorem rebuildingGivesTheSameTable : Obligations.RebuildingGivesTheSameTable := by
  intro s u legalS legalU sameBytes
  have sameCandidates : candidatesOf u.key = candidatesOf s.key := congrArg candidatesOf sameBytes
  exact ⟨_, _, exec_kpBuild legalS, rfl, exec_kpBuild legalU, sameCandidates, congrArg probe sameCandidates⟩

/-- Settles O21: the model's tables are the lists, entry by entry. -/
theorem constantTablesAreTheListedOnes : Obligations.ConstantTablesAreTheListedOnes :=
  ⟨fun i => ⟨evid_eq_evidence i, nOfIdx_eq_nibbleOfIndex i, idxOfN_eq_indexOfNibble i, lutEnc_eq_forward i⟩,
    evid_strictMono, fun n => ⟨evid_idxOfN n, nOfIdx_idxOfN n, idxOfN_nOfIdx n⟩⟩

end Sys2Proof.Proofs.KeyedPermutation
end

section
/-!
SUPPORT. The commands of the pixel plane, one equation for each way each of them ends (42_pixel_plane.md R175 to R190),
and the fragments of a code merged into samples and taken out again (R170 to R173, R191).
-/

namespace Sys2Proof.Machine

open Sys2Proof.Statements

variable {s u : State}

/-! Entries of the two buffers, written and unwritten (20_memory.md R56). -/

theorem State.rowEntry_of_read {a : Nat} {b : Byte} (h : s.rowbuf.read a = some b) : s.rowEntry a = b := by
  rw [State.rowEntry, h, Option.getD_some]

theorem State.rowEntry_of_unwritten {a : Nat} (h : s.rowbuf.read a = none) :
    s.rowEntry a = Config.rowContent s.epoch a := by
  rw [State.rowEntry, h, Option.getD_none]

theorem State.codeEntry_of_read {a : Nat} {c : Nibble} (h : s.codebuf.read a = some c) : s.codeEntry a = c := by
  rw [State.codeEntry, h, Option.getD_some]

theorem State.codeEntry_of_unwritten {a : Nat} (h : s.codebuf.read a = none) :
    s.codeEntry a = Config.codeContent s.epoch a := by
  rw [State.codeEntry, h, Option.getD_none]

/-- A sample depends on ROWBUF and on the reset it has not been written since, on no other field. -/
theorem State.rowEntry_congr (rowbuf : u.rowbuf = s.rowbuf) (epoch : u.epoch = s.epoch) (a : Nat) :
    u.rowEntry a = s.rowEntry a := by
  rw [State.rowEntry, State.rowEntry, rowbuf, epoch]

theorem embedLoop_epoch (n : Nat) (s : State) : (embedLoop n s).epoch = s.epoch := by
  rw [embedLoop_frame]

/-- The samples after the embedding loop: merged below `n`, the old ones from `n` on. -/
theorem embedLoop_rowEntry (n : Nat) (s : State) (a : Nat) :
    (embedLoop n s).rowEntry a =
      if a < n then mergeFragment (s.rowEntry a) (fragmentAt s.codeEntry a) else s.rowEntry a := by
  rw [State.rowEntry, embedLoop_read, embedLoop_epoch]
  split
  · exact Option.getD_some
  · rfl

/-! Fragments. -/

theorem fragmentAt_even (codes : Nat → Nibble) (k : Nat) : fragmentAt codes (2 * k) = highFragment (codes k) := by
  simp [fragmentAt]

theorem fragmentAt_odd (codes : Nat → Nibble) (k : Nat) :
    fragmentAt codes (2 * k + 1) = whiten (lowFragment (codes k)) := by
  have odd : (2 * k + 1) % 2 ≠ 0 := by omega
  have half : (2 * k + 1) / 2 = k := by omega
  rw [fragmentAt, if_neg odd, half]

/-- Whitening is an involution (R173). -/
theorem whiten_whiten (f : Fragment) : whiten (whiten f) = f := by
  simp [whiten]

/-- A code is its two fragments, the high one first (R170). -/
theorem fragments_append (c : Nibble) : highFragment c ++ lowFragment c = c :=
  (BitVec.extractLsb'_append_extractLsb'_eq_extractLsb' rfl).trans BitVec.extractLsb'_eq_self

/-- A merged sample carries the fragment in bits 1:0. -/
theorem lowBits_mergeFragment (sample : Byte) (f : Fragment) : lowBits (mergeFragment sample f) = f := by
  have cleared : (0xFC : Byte).extractLsb' 0 2 = 0#2 := by decide
  have fragment : (f.setWidth 8).extractLsb' 0 2 = f :=
    (BitVec.extractLsb'_setWidth_of_le (by decide)).trans BitVec.extractLsb'_eq_self
  rw [lowBits, mergeFragment, BitVec.extractLsb'_or, BitVec.extractLsb'_and, cleared, fragment, BitVec.and_zero,
    BitVec.zero_or]

/-- Merging a fragment leaves bits 7:2 of the sample (R186). -/
theorem upperBits_mergeFragment (sample : Byte) (f : Fragment) :
    (mergeFragment sample f).extractLsb' 2 6 = sample.extractLsb' 2 6 := by
  have kept : (0xFC : Byte).extractLsb' 2 6 = BitVec.allOnes 6 := by decide
  have fragment : (f.setWidth 8).extractLsb' 2 6 = 0#6 := by
    ext i
    simp
  rw [mergeFragment, BitVec.extractLsb'_or, BitVec.extractLsb'_and, kept, fragment, BitVec.and_allOnes,
    BitVec.or_zero]

/-- Two samples that carry the stored fragments of a code give the code back (R172, R190). -/
theorem recombine_mergeFragment (even odd : Byte) (c : Nibble) :
    recombine (mergeFragment even (highFragment c)) (mergeFragment odd (whiten (lowFragment c))) = c := by
  rw [recombine, lowBits_mergeFragment, lowBits_mergeFragment, whiten_whiten, fragments_append]

/-- Two samples the embedding loop has reached give their code back (R191). -/
theorem recombine_embedLoop {n k : Nat} (reached : 2 * k + 1 < n) (s : State) :
    recombine ((embedLoop n s).rowEntry (2 * k)) ((embedLoop n s).rowEntry (2 * k + 1)) = s.codeEntry k := by
  rw [embedLoop_rowEntry, embedLoop_rowEntry, if_pos reached, if_pos (Nat.lt_of_succ_lt reached), fragmentAt_even,
    fragmentAt_odd, recombine_mergeFragment]

/-! The commands. -/

/-- A command that checks a limit first raises RANGE beyond it (60_exceptions.md R240). -/
theorem limited_beyond {p : Prop} [Decidable p] {a : Result} (beyond : p) :
    (if p then raise .range s else a) = .next (afterError 3 s) :=
  if_pos beyond

theorem exec_rowLen_within {count : BitVec 13} (within : count.toNat ≤ s.params.rowMax) :
    exec (.rowLen count) s = respondOk 0 (s.setRowlen count) :=
  if_neg (not_lt.2 within)

theorem exec_rowWr_within {addr : BitVec 12} (d : Byte) (within : addr.toNat < s.params.rowMax) :
    exec (.rowWr addr d) s = respondOk 0 (s.writeRow addr.toNat d) :=
  if_neg (not_le.2 within)

theorem exec_rowRd_within {addr : BitVec 12} (within : addr.toNat < s.params.rowMax) :
    exec (.rowRd addr) s = respondOk (zext16 (s.rowEntry addr.toNat)) s :=
  if_neg (not_le.2 within)

theorem exec_codeWr_within {addr : BitVec 12} (d : Nibble) (within : addr.toNat < s.params.codeMax) :
    exec (.codeWr addr d) s = respondOk 0 (s.writeCode addr.toNat d) :=
  if_neg (not_le.2 within)

theorem exec_codeRd_within {addr : BitVec 12} (within : addr.toNat < s.params.codeMax) :
    exec (.codeRd addr) s = respondOk (zext16 (s.codeEntry addr.toNat)) s :=
  if_neg (not_le.2 within)

/-- PP.EMBED with a legal `ROWLEN` stays within ROWBUF. -/
theorem exec_ppEmbed_within {count : BitVec 13} (within : count.toNat ≤ s.params.codeMax)
    (legal : s.rowlen.toNat ≤ s.params.rowMax) :
    exec (.ppEmbed count) s =
      respondOk (BitVec.ofNat 16 (embedLength s count)) (embedLoop (embedLength s count) s) := by
  have inside : embedLength s count ≤ s.params.rowMax := (Nat.min_le_right ..).trans legal
  exact (if_neg (not_lt.2 within)).trans (if_neg (not_lt.2 inside))

/-- PP.EXTRACT with a legal `ROWLEN` stays within ROWBUF. -/
theorem exec_ppExtract_within {count : BitVec 13} (within : count.toNat ≤ s.params.codeMax)
    (legal : s.rowlen.toNat ≤ s.params.rowMax) :
    exec (.ppExtract count) s =
      respondOk (BitVec.ofNat 16 (extractLength s count)) (extractLoop (extractLength s count) s) := by
  have inside : 2 * extractLength s count ≤ s.params.rowMax := by
    unfold extractLength
    omega
  exact (if_neg (not_lt.2 within)).trans (if_neg (not_lt.2 inside))

end Sys2Proof.Machine
end

section
/-! The statements about the pixel plane (42_pixel_plane.md). -/

namespace Sys2Proof.Proofs.PixelPlane

open Sys2Proof.Machine Sys2Proof.Statements

/-- Settles O34: beyond ROW_MAX the check raises RANGE, and within it ROWLEN is all that is written. -/
theorem rowLenSetsTheRowLength : Obligations.RowLenSetsTheRowLength :=
  ⟨runsAs_opcode .rowLen, fun _ _ => ⟨limited_beyond, exec_rowLen_within⟩⟩

/-- Settles O35: within ROW_MAX the effect is one write to ROWBUF, which leaves every other entry. -/
theorem rowWrWritesOneSample : Obligations.RowWrWritesOneSample := by
  refine ⟨runsAs_opcode .rowWr, fun addr d s => ⟨limited_beyond, fun within => ?_⟩⟩
  exact ⟨_, exec_rowWr_within d within, Memory.read_write_same _ _ d,
    fun a other => Memory.read_write_other _ d other, rfl⟩

/-- Settles O36: within ROW_MAX the answer is the sample, which is what was written or the free value. -/
theorem rowRdReadsOneSample : Obligations.RowRdReadsOneSample := by
  refine ⟨runsAs_opcode .rowRd, fun addr s => ⟨limited_beyond, fun within => ?_⟩⟩
  rw [exec_rowRd_within within]
  refine ⟨fun b written => ?_, fun unwritten => ?_⟩
  · rw [State.rowEntry_of_read written]
    rfl
  · rw [State.rowEntry_of_unwritten unwritten]
    rfl

/-- Settles O37: within CODE_MAX the effect is one write to CODEBUF, which leaves every other entry. -/
theorem codeWrWritesOneCode : Obligations.CodeWrWritesOneCode := by
  refine ⟨runsAs_opcode .codeWr, fun addr d s => ⟨limited_beyond, fun within => ?_⟩⟩
  exact ⟨_, exec_codeWr_within d within, Memory.read_write_same _ _ d,
    fun a other => Memory.read_write_other _ d other, rfl⟩

/-- Settles O38: within CODE_MAX the answer is the code, which is what was written or the free value. -/
theorem codeRdReadsOneCode : Obligations.CodeRdReadsOneCode := by
  refine ⟨runsAs_opcode .codeRd, fun addr s => ⟨limited_beyond, fun within => ?_⟩⟩
  rw [exec_codeRd_within within]
  refine ⟨fun c written => ?_, fun unwritten => ?_⟩
  · rw [State.codeEntry_of_read written]
    rfl
  · rw [State.codeEntry_of_unwritten unwritten]
    rfl

/-- Settles O39: by what the embedding loop leaves in ROWBUF entry by entry; it changes no other field. -/
theorem ppEmbedStoresTheFragments : Obligations.PpEmbedStoresTheFragments := by
  refine ⟨runsAs_opcode .ppEmbed, fun count s => ⟨limited_beyond, fun within legal => ?_⟩⟩
  refine ⟨_, exec_ppEmbed_within within legal, fun j below => ?_, fun j beyond => ?_, ?_⟩
  · exact (embedLoop_read _ s j).trans (if_pos below)
  · exact (embedLoop_read _ s j).trans (if_neg (not_lt.2 beyond))
  · rw [embedLoop_frame]
    rfl

/-- Settles O40: PP.EMBED writes nothing, or its loop merges fragments into the samples below `L`. -/
theorem ppEmbedKeepsTheUpperSixBits : Obligations.PpEmbedKeepsTheUpperSixBits := by
  intro count s t next j
  obtain ⟨c, rfl⟩ | rfl | ⟨r, u, effect, rfl⟩ := exec_next_cases next
  · exact ⟨rfl, fun _ => rfl⟩
  · exact ⟨rfl, fun _ => rfl⟩
  · cases effect with
    | unchanged => exact ⟨rfl, fun _ => rfl⟩
    | ppEmbed =>
      have sample := embedLoop_rowEntry (embedLength s count) s j
      by_cases below : j < embedLength s count
      · rw [if_pos below] at sample
        exact ⟨(congrArg _ sample).trans (upperBits_mergeFragment ..), fun beyond => absurd below (not_lt.2 beyond)⟩
      · rw [if_neg below] at sample
        exact ⟨congrArg _ sample, fun _ => sample⟩

/-- Settles O41: by what the extracting loop leaves in CODEBUF entry by entry; it changes no other field. -/
theorem ppExtractRecombinesTheFragments : Obligations.PpExtractRecombinesTheFragments := by
  refine ⟨runsAs_opcode .ppExtract, fun count s => ⟨limited_beyond, fun within legal => ?_⟩⟩
  refine ⟨_, exec_ppExtract_within within legal, fun k below => ?_, fun k beyond => ?_, ?_⟩
  · exact (extractLoop_read _ s k).trans (if_pos below)
  · exact (extractLoop_read _ s k).trans (if_neg (not_lt.2 beyond))
  · rw [extractLoop_frame]
    rfl

/-- Settles O42: below `K` both samples of a code are below `L`, so they carry its fragments when PP.EXTRACT reads
them. -/
theorem extractAfterEmbedGivesTheCodesBack : Obligations.ExtractAfterEmbedGivesTheCodesBack := by
  intro count s within legal
  refine ⟨_, exec_ppEmbed_within within legal, fun u rowbuf rowlen params epoch => ?_⟩
  refine ⟨_, exec_ppExtract_within (params ▸ within) (params ▸ rowlen ▸ legal), fun k below => ?_⟩
  have reached : 2 * k + 1 < embedLength s count := by
    unfold embedLength
    omega
  have sample := State.rowEntry_congr (s := embedLoop (embedLength s count) s) rowbuf
    (epoch.trans (embedLoop_epoch _ s).symm)
  have inside : k < extractLength u count := by rwa [extractLength, rowlen]
  refine State.codeEntry_of_read ((extractLoop_read _ u k).trans ?_)
  rw [if_pos inside, sample, sample, recombine_embedLoop reached]

/-- Settles O43: a row of one sample makes `L` = 1, and entry 0 takes the high fragment of the first code. -/
theorem embeddingIntoOneSample : Obligations.EmbeddingIntoOneSample := by
  intro count s one some within room
  have legal : s.rowlen.toNat ≤ s.params.rowMax := one ▸ room
  have length : embedLength s count = 1 := by
    have row : s.rowlen.toNat = 1 := congrArg BitVec.toNat one
    unfold embedLength
    omega
  have run := exec_ppEmbed_within within legal
  rw [length] at run
  refine ⟨_, run, lastResult_afterOk _ _, ?_, fun a other => ?_⟩
  · exact (embedLoop_rowEntry 1 s 0).trans (if_pos Nat.one_pos)
  · exact (embedLoop_read 1 s a).trans (if_neg (mt Nat.lt_one_iff.1 other))

end Sys2Proof.Proofs.PixelPlane
end

section
/-!
SUPPORT. The per-sample transforms, one equation for each way each of them ends (43_transform_control.md R210, R212),
and the register views as a list (R222).
-/

namespace Sys2Proof.Machine

open Sys2Proof.Safety Sys2Proof.Statements

variable {s : State}

/-! The transforms. -/

theorem exec_xfEnc_built (built : s.ptValid = true) (v : Byte) :
    exec (.xfEnc v) s = .next (afterOk (zext16 (entry s.slot (idxOfN (v.extractLsb' 4 4)))) s) :=
  if_pos built

theorem exec_xfDec_found (built : s.ptValid = true) {v i : Nibble} (found : indexOf s.slot v = some i) :
    exec (.xfDec v) s = .next (afterOk (zext16 (nOfIdx i) <<< 4) s) := by
  simp only [exec, execXfDec, built, if_true, found, respondOk_eq_afterOk]

/-- NC.DEC of an evidence tuple: each one is the forward entry of its nibble (R131, R132). -/
theorem exec_ncDec_evid (i : Nibble) (s : State) :
    exec (.ncDec (evid i)) s = .next (afterOk (zext16 (nOfIdx i)) s) := by
  have canonical : lutEnc (nOfIdx i) = evid i := by rw [← evid_idxOfN, idxOfN_nOfIdx]
  exact canonical ▸ exec_ncDec_canonical (nOfIdx i) s

/-! A nibble as the top half of a sample. -/

theorem zext16_shiftLeft_four : ∀ n : Nibble, zext16 n <<< 4 = (n ++ 0#4).setWidth 16 := by decide

theorem topNibble_append_zero (x : Byte) : x.extractLsb' 4 4 ++ 0#4 = x &&& 0xF0 := by
  have mask : (0xF0 : Byte) = BitVec.allOnes 4 ++ 0#4 := rfl
  have halves : x.extractLsb' 4 4 ++ x.extractLsb' 0 4 = x :=
    (BitVec.extractLsb'_append_extractLsb'_eq_extractLsb' rfl).trans BitVec.extractLsb'_eq_self
  calc x.extractLsb' 4 4 ++ 0#4
      = (x.extractLsb' 4 4 ++ x.extractLsb' 0 4) &&& (BitVec.allOnes 4 ++ 0#4) := by
        rw [BitVec.and_append, BitVec.and_allOnes, BitVec.and_zero]
    _ = x &&& 0xF0 := by rw [halves, mask]

/-! The register views. -/

/-- The views of R222 in the order of their selectors. -/
def registerViews (s : State) : List (BitVec 16) :=
  [statusView s, zext16 s.cause, s.degcnt, s.keylen, zext16 s.rowlen,
   fourOf s.slot 0, fourOf s.slot 4, fourOf s.slot 8, fourOf s.slot 12,
   fourOf s.cand 0, fourOf s.cand 4, fourOf s.cand 8, fourOf s.cand 12]

theorem regView_eq_getElem? (s : State) (v : Nibble) : regView s v = (registerViews s)[v.toNat]? := by
  unfold regView
  obtain listed | beyond := Nat.lt_or_ge v.toNat 13
  · interval_cases v.toNat <;> rfl
  · obtain ⟨k, selector⟩ := Nat.exists_eq_add_of_le' beyond
    rw [selector]
    rfl

theorem exec_regRd_view {v : Nibble} {x : BitVec 16} (view : (registerViews s)[v.toNat]? = some x) :
    exec (.regRd v) s = .next (afterOk x s) := by
  simp only [exec, execRegRd, regView_eq_getElem?, view, respondOk_eq_afterOk]

theorem exec_regRd_beyond {v : Nibble} (beyond : 12 < v.toNat) : exec (.regRd v) s = .next (afterError 3 s) := by
  have noView : (registerViews s)[v.toNat]? = none := List.getElem?_eq_none beyond
  simp only [exec, execRegRd, regView_eq_getElem?, noView, raise_eq_afterError, Cause.code]

end Sys2Proof.Machine
end

section
/-! The statements about the per-sample transforms and the control commands (43_transform_control.md). -/

namespace Sys2Proof.Proofs.TransformControl

open Sys2Proof.Machine Sys2Proof.Statements

/-- Settles O44: with a table, the slot at the index of the top nibble, which is the listed one. -/
theorem xfEncMapsTheTopNibble : Obligations.XfEncMapsTheTopNibble := by
  refine ⟨runsAs_opcode .xfEnc, fun v s => ⟨needsTable_unbuilt, fun built => ?_⟩⟩
  exact idxOfN_eq_indexOfNibble _ ▸ exec_xfEnc_built built v

/-- Settles O45: in a bijection the search finds an index, whose nibble becomes the top half of the sample. -/
theorem xfDecRebuildsTheSample : Obligations.XfDecRebuildsTheSample := by
  refine ⟨runsAs_opcode .xfDec, fun v s => ⟨needsTable_unbuilt, fun built bijective => ?_⟩⟩
  obtain ⟨i, found, holds⟩ := exists_indexOf_of_bijective bijective v
  refine ⟨i, holds, ?_⟩
  rw [← nOfIdx_eq_nibbleOfIndex, ← zext16_shiftLeft_four]
  exact exec_xfDec_found built found

/-- Settles O46: NC.ENC's result is the evidence tuple at the nibble's index, whose slot KP.FWD answers. -/
theorem xfEncIsNcEncThenKpFwd : Obligations.XfEncIsNcEncThenKpFwd := by
  intro v s built
  refine ⟨_, afterOk (zext16 (entry s.slot (idxOfN (v.extractLsb' 4 4)))) _, exec_ncEnc _ s, ?_,
    answers_afterOk _ _, ?_⟩
  · rw [lastResult_afterOk, extractLsb'_zext16_triple, ← evid_idxOfN]
    exact exec_kpFwd_evid (s := afterOk _ s) built _
  · rw [lastResult_afterOk]
    exact exec_xfEnc_built built v

/-- Settles O47: both commands search for the same index, and NC.DEC gives the nibble of its evidence tuple. -/
theorem xfDecIsKpInvThenNcDec : Obligations.XfDecIsKpInvThenNcDec := by
  intro c s inv built
  obtain ⟨i, found, -⟩ := exists_indexOf_of_bijective (inv.tableLegal built) c
  refine ⟨_, afterOk (zext16 (nOfIdx i)) _, exec_kpInv_found built found, answers_afterOk _ s, ?_,
    answers_afterOk _ _, ?_⟩
  · rw [lastResult_afterOk, extractLsb'_zext16_triple]
    exact exec_ncDec_evid i _
  · rw [lastResult_afterOk]
    exact exec_xfDec_found built found

/-- Settles O48: the search finds the index XF.ENC looked up, for the two tables are one bijection, and the index's
nibble is the top half of the sample. -/
theorem xfDecOfXfEncKeepsTheTopNibble : Obligations.XfDecOfXfEncKeepsTheTopNibble := by
  intro x s u inv built builtU sameTable
  have found : ∀ i, indexOf u.slot (entry s.slot i) = some i :=
    fun i => sameTable ▸ indexOf_entry (inv.tableLegal built).injective i
  refine ⟨_, exec_xfEnc_built built x, answers_afterOk _ s, ?_⟩
  rw [lastResult_afterOk, extractLsb'_zext16 (by decide), exec_xfDec_found builtU (found _), nOfIdx_idxOfN,
    zext16_shiftLeft_four, topNibble_append_zero]

/-- Settles O50: the selectors above 12 are those beyond the list of views. -/
theorem regRdGivesTheRegisterViews : Obligations.RegRdGivesTheRegisterViews :=
  ⟨runsAs_opcode .regRd, fun _ => ⟨fun _ => exec_regRd_beyond, fun _ _ => exec_regRd_view⟩⟩

/-- Settles O49: the word runs as its row of R75 does, and NOP writes nothing before the answer. -/
theorem nopOnlyAnswers : Obligations.NopOnlyAnswers :=
  ⟨runsAs_opcode .nop, fun s => respondOk_eq_afterOk 0 s⟩

/-- Settles O51: the three status registers are all that is written before the answer. -/
theorem statClrClearsTheStatus : Obligations.StatClrClearsTheStatus :=
  ⟨runsAs_opcode .statClr, fun s => respondOk_eq_afterOk 0 s.clearStatus⟩

end Sys2Proof.Proofs.TransformControl
end

section
/-!
SUPPORT. What a step makes of the host's list, when it completes (70_reset_and_hazards.md R280), and when a command
word answers ERROR (60_exceptions.md R241, R243).
-/

namespace Sys2Proof.Machine

open Sys2Proof.Safety Sys2Proof.Statements

variable {s t : State} {w : Word} {e : HostEvent} {rest : List HostEvent}

/-! The host's list. -/

theorem step_event (hin : s.inputs = e :: rest) : step s = runEvent e { s with inputs := rest } := by
  simp [step, runPort, hin]

theorem runCommand_inputs (next : runCommand w s = .next t) : t.inputs = s.inputs := by
  cases runCommand_ending next with
  | raised _ _ ht | degraded _ _ ht | cleared _ ht => exact ht ▸ rfl
  | ok _ _ same _ ht =>
    obtain ⟨-, -, -, -, -, inputs, -⟩ := same
    exact ht ▸ inputs

theorem runEvent_inputs (next : runEvent e s = .next t) : t.inputs = s.inputs := by
  cases e with
  | command w => exact runCommand_inputs next
  | reset => cases next; rfl
  | resetDuring w =>
    obtain rfl | ⟨u, run, rfl⟩ := runResetDuring_next_cases next
    · rfl
    · exact (runCommand_inputs run :)
  | overlapping w => cases next

/-- A step takes the event in front off the host's list and adds none. -/
theorem step_inputs (next : step s = .next t) : t.inputs = s.inputs.tail := by
  cases hin : s.inputs with
  | nil => cases (step_idle hin).symm.trans next; exact hin
  | cons e rest => exact runEvent_inputs ((step_event hin).symm.trans next)

theorem keepsHandshake_step (careful : KeepsHandshake s) (next : step s = .next t) : KeepsHandshake t :=
  fun w listed => careful w (List.mem_of_mem_tail (step_inputs next ▸ listed))

/-! What completes. -/

theorem runResetDuring_completes (inv : BlockInv s) (w : Word) : Completes (runResetDuring w s) := by
  obtain ⟨u, run⟩ := runCommand_completes inv w
  unfold runResetDuring
  exact .ite (fun _ => ⟨u.acceptReset, by rw [run]⟩) fun _ => ⟨_, rfl⟩

/-- Every event but an overlapping command completes in a state that meets the invariant. -/
theorem runEvent_completes (inv : BlockInv s) (careful : ∀ w, e ≠ .overlapping w) : Completes (runEvent e s) := by
  cases e with
  | command w => exact runCommand_completes inv w
  | reset => exact ⟨_, rfl⟩
  | resetDuring w => exact runResetDuring_completes inv w
  | overlapping w => exact absurd rfl (careful w)

theorem step_completes (inv : BlockInv s) (careful : KeepsHandshake s) : Completes (step s) := by
  cases hin : s.inputs with
  | nil => exact ⟨s, step_idle hin⟩
  | cons e rest =>
    have notOverlapping : ∀ w, e ≠ .overlapping w := by
      rintro w rfl
      exact careful w (hin ▸ List.mem_cons_self)
    exact step_event hin ▸ runEvent_completes (inv.withInputs rest) notOverlapping

/-! Errors. -/

theorem not_answers_error {u : State} {r : Word} (same : u.responses = s.responses)
    (status : r.extractLsb' 30 2 ≠ 0b10) : ¬ Answers s (u.answer r) 0b10 :=
  mt (answers_answer same).1 status

/-- A command word that answers ERROR has raised a cause: the other ways a command ends answer another status. -/
theorem runCommand_raises_of_answers_error (next : runCommand w s = .next t) (error : Answers s t 0b10) :
    ∃ c, runCommand w s = raise c s := by
  cases runCommand_ending next with
  | raised c _ ht => exact ⟨c, next.trans (raise_next.2 ht).symm⟩
  | degraded _ _ ht | cleared _ ht =>
    subst ht
    exact absurd error (not_answers_error rfl (by simp))
  | ok _ _ same _ ht =>
    obtain ⟨-, -, -, -, -, -, responses⟩ := same
    subst ht
    exact absurd error (not_answers_error responses (by simp))

theorem step_raises_of_answers_error (hin : s.inputs = .command w :: rest) (next : step s = .next t)
    (error : Answers s t 0b10) : ∃ c, step s = raise c { s with inputs := rest } := by
  rw [step_command hin] at next ⊢
  exact runCommand_raises_of_answers_error next error

/-- A word of another status is not the answer of an error. -/
theorem answer_ne_raise {r : Word} (status : r.extractLsb' 30 2 ≠ 0b10) (u : State) (c : Cause) (s : State) :
    Host.Outcome.next (u.answer r) ≠ raise c s := by
  intro same
  have sameWord : r = errorWord c := List.head_eq_of_cons_eq (congrArg State.responses (raise_next.1 same.symm))
  exact status (sameWord ▸ errorWord_status c)

theorem respondOk_ne_raise (r : BitVec 16) (u : State) (c : Cause) (s : State) : respondOk r u ≠ raise c s :=
  answer_ne_raise (by simp) u c s

theorem degrade_ne_raise (c : Cause) (s : State) : degrade s ≠ raise c s :=
  answer_ne_raise (by simp) s.countDegraded c s

/-- The opcodes of the eight commands of R241, every operand of which is legal. -/
def everyOperandLegal : List Opcode := [.nop, .ncEnc, .ncDec, .keyClr, .kpSetc, .kpBuild, .kpProbe, .statClr]

theorem opcode_withFields (o : Opcode) (w : Word) : (withFields o w).opcode = o := by
  cases o <;> rfl

/-- The eight commands check nothing that R240 lists: KP.BUILD may fault, the others answer OK or DEGRADED. -/
theorem exec_ne_raise {i : Instr} (listed : i.opcode ∈ everyOperandLegal) (c : Cause) (s : State) :
    exec i s ≠ raise c s := by
  cases i with
  | nop | ncEnc | keyClr | kpSetc | kpProbe | statClr => exact respondOk_ne_raise _ _ c s
  | ncDec x =>
    simp only [exec, execNcDec]
    cases lutDec x with
    | some n => exact respondOk_ne_raise _ _ c s
    | none => exact degrade_ne_raise c s
  | kpBuild => exact iteInduction (motive := (· ≠ raise c s)) (fun _ => nofun) fun _ => respondOk_ne_raise _ _ c s
  | _ => simp [Instr.opcode, everyOperandLegal] at listed

end Sys2Proof.Machine
end

section
/-! The statements about runs and errors (60_exceptions.md R241, R243; 70_reset_and_hazards.md R280). -/

namespace Sys2Proof.Proofs.Exceptions

open Sys2Proof.Machine Sys2Proof.Safety Sys2Proof.Statements

/-- Settles O14: by induction on the length of the run; each step completes, keeps the invariant and adds no event to
the host's list. -/
theorem noRunOfACarefulHostStops : Obligations.NoRunOfACarefulHostStops := by
  intro s k inv careful
  induction k generalizing s with
  | zero => exact ⟨s, rfl⟩
  | succ k ih =>
    obtain ⟨t, next⟩ := step_completes inv careful
    obtain ⟨u, run⟩ := ih t (inv.step next) (keepsHandshake_step careful next)
    exact ⟨u, (core_run_succ k next).trans run⟩

/-- Settles O52: a word that answers ERROR has raised, and to raise is to latch the cause and answer. -/
theorem anErrorChangesOnlyErrAndCause : Obligations.AnErrorChangesOnlyErrAndCause := by
  intro s t w rest hin next error
  obtain ⟨c, raised⟩ := step_raises_of_answers_error hin next error
  obtain ⟨atMost, nonzero⟩ := c.code_legal
  have atLeast : 1 ≤ c.code.toNat := Nat.one_le_iff_ne_zero.2 (BitVec.toNat_ne.1 nonzero)
  exact ⟨c.code, atLeast, atMost, Host.Outcome.next.inj (next.symm.trans raised)⟩

/-- Settles O55: with no reserved bit set the word runs one of the eight commands, which do not raise. -/
theorem eightCommandsRaiseNothingButReserved : Obligations.EightCommandsRaiseNothingButReserved := by
  intro s t w rest hin opc next error
  obtain ⟨o, listed, code⟩ : ∃ o ∈ everyOperandLegal, o.code = w.extractLsb' 24 8 := List.mem_map.1 opc
  obtain ⟨onBitSet, onClear⟩ := runsAs_opcode o s w rest hin code.symm
  by_cases clear : w &&& o.format.reservedMask = 0
  · obtain ⟨c, raised⟩ := step_raises_of_answers_error hin next error
    have raises : exec (withFields o w) _ = raise c _ := (onClear clear).symm.trans raised
    have legal : (withFields o w).opcode ∈ everyOperandLegal := by rwa [opcode_withFields]
    exact absurd raises (exec_ne_raise legal c _)
  · exact Host.Outcome.next.inj (next.symm.trans (onBitSet clear))

end Sys2Proof.Proofs.Exceptions
end

section
/-!
SUPPORT. What a reset makes of the block, between commands and during one (70_reset_and_hazards.md R270, R271;
93_implementation_defined.md U4).
-/

namespace Sys2Proof.Machine

open Sys2Proof.Safety

variable {s t u : State} {w : Word}

/-- No command changes the sizes or the number of resets. -/
theorem runCommand_params_epoch (next : runCommand w s = .next u) : u.params = s.params ∧ u.epoch = s.epoch := by
  cases runCommand_ending next with
  | raised _ _ hu | degraded _ _ hu | cleared _ hu => exact hu ▸ ⟨rfl, rfl⟩
  | ok _ _ same _ hu =>
    obtain ⟨-, -, -, params, epoch, -, -⟩ := same
    exact hu ▸ ⟨params, epoch⟩

/-- Of a command performed before a reset only its response is left. -/
theorem acceptReset_runCommand (next : runCommand w s = .next u) :
    u.acceptReset = { s.acceptReset with responses := u.responses } := by
  obtain ⟨params, epoch⟩ := runCommand_params_epoch next
  simp only [State.acceptReset, params, epoch, runCommand_inputs next]

/-- A reset during a command leaves the reset state with the responses of before the command or of after it. -/
theorem runResetDuring_next (command : runCommand w s = .next u) (next : runResetDuring w s = .next t) :
    (t.responses = s.responses ∨ t.responses = u.responses) ∧
    t = { s.acceptReset with responses := t.responses } := by
  obtain rfl | ⟨v, run, rfl⟩ := runResetDuring_next_cases next
  · exact ⟨.inl rfl, rfl⟩
  · obtain rfl : u = v := Host.Outcome.next.inj (command.symm.trans run)
    exact ⟨.inr rfl, acceptReset_runCommand run⟩

end Sys2Proof.Machine
end

section
/-! The statements about reset and about overlapping commands (70_reset_and_hazards.md R270, R271, R280). -/

namespace Sys2Proof.Proofs.ResetAndHazards

open Sys2Proof.Machine Sys2Proof.Safety

/-- Settles O10: the command completes alone and so does the reset during it, which leaves of the command at most its
response. -/
theorem resetDuringACommandHasOneOfTwoOutcomes : Obligations.ResetDuringACommandHasOneOfTwoOutcomes := by
  intro s w rest inv hin
  have inv' := inv.withInputs rest
  obtain ⟨u, command⟩ := runCommand_completes inv' w
  obtain ⟨t, reset⟩ := runResetDuring_completes inv' w
  obtain ⟨oneOfTwo, isReset⟩ := runResetDuring_next command reset
  exact ⟨t, u, (step_event hin).trans reset, (step_command rfl).trans command, oneOfTwo, isReset⟩

/-- Settles O9: the step accepts the reset, whose registers are R35's values and whose buffers list no entry. -/
theorem resetOfARunningBlock : Obligations.ResetOfARunningBlock :=
  fun _ _ hin => step_event hin

/-- Settles O11: the event itself is refused, whatever the word and the state. -/
theorem overlappingCommandIsRefused : Obligations.OverlappingCommandIsRefused :=
  fun _ _ _ hin => step_event hin

end Sys2Proof.Proofs.ResetAndHazards
end
